-- ==== Sys2Proof/Word.lean ====
section
/-!
DEFINITION. The word types of the LBlock core (spec/00_scope.md rule R5, section 7): every value is an
unsigned bit vector of its stated width, nothing is signed.
-/

namespace Sys2Proof

/-- A nibble: `NIBBLE_BITS = 4` (R5). -/
abbrev Nibble := BitVec 4
/-- One half of a block, one round subkey: `HALF_BITS = SUBKEY_BITS = 32` (R5). -/
abbrev Word := BitVec 32
/-- A 64-bit block, a ciphertext, or a difference of the same shape: `BLOCK_BITS = 64` (R5). -/
abbrev Block := BitVec 64
/-- The 80-bit key, key state or key difference: `KEY_BITS = 80` (R5). -/
abbrev Key := BitVec 80
/-- An ActiveSBoxVector packed in 8 bits, bit `i` the flag of S-box `i` (R22). -/
abbrev ActVec := BitVec 8
/-- A weight, 0..256, in 9 bits (R28). -/
abbrev WeightBits := BitVec 9
/-- A command word (R65). -/
abbrev CmdWord := BitVec 16
/-- A round index 0..31 (R5, R67; D21: in a model, `Fin 32`). -/
abbrev Round := Fin 32
/-- A nibble position 0..7, which is also the number of an S-box of the round function (R16, R100). -/
abbrev Lane := Fin 8
/-- One substitution table: 16 entries of 4 bits (R13). -/
abbrev SBox := Vector Nibble 16

end Sys2Proof
end

