-- ==== Sys2Proof/Syntax.lean ====
section
/-!
DEFINITION. The syntax of the LBlock core: the mode, the fields of the one command format `C16`
(spec/30_encoding.md rule R65) and the twelve operations of rule R66, one constructor per row of
spec/opcode_table.json. An operation carries exactly the fields of the command word it uses.
-/

namespace Sys2Proof

/-- The two modes an operation runs in, selected once per operation (R8). -/
inductive Mode where
  /-- `REAL`, encoded 0: XOR and the tables `S[0..9]`. -/
  | real
  /-- `DIFF`, encoded 1: OR and the differential table `DS`. -/
  | diff
  deriving DecidableEq, Repr

/-- The fields of a command word, format `C16` (R65). -/
structure Fields where
  op   : BitVec 4
  m    : BitVec 1
  t    : BitVec 1
  minr : BitVec 5
  maxr : BitVec 5
  deriving DecidableEq, Repr

/-- The twelve operations (R66). `m` is the mode flag, `t` the trace flag (R26), `lo` and `hi` the closed
round range `MINR..MAXR` (R67). -/
inductive Instr where
  /-- substitution layer (R107) -/
  | slyr (m : Mode)
  /-- permutation layer (R108) -/
  | plyr
  /-- inverse permutation layer (R109) -/
  | pinv
  /-- round function F (R110) -/
  | frnd (m : Mode) (t : Bool)
  /-- reverse round function (R121) -/
  | rrev
  /-- key schedule (R131) -/
  | ksch (m : Mode)
  /-- forward rounds over a range (R146) -/
  | rndf (m : Mode) (t : Bool) (lo hi : Round)
  /-- backward rounds over a range (R147) -/
  | rndb (m : Mode) (t : Bool) (lo hi : Round)
  /-- encrypt one block (R148) -/
  | encb
  /-- decrypt one block (R149) -/
  | decb
  /-- weight of a trail (R163) -/
  | wght
  /-- rank the 77 key-difference candidates (R167) -/
  | rank (lo hi : Round)
  deriving DecidableEq, Repr

end Sys2Proof
end

