-- ==== Sys2Proof/WellFormed.lean ====
section
/-!
DEFINITION. What a legal command looks like, stated on the fields of a word (spec/30_encoding.md rules R66
and R71 (a), (b)) and independently of the decoder, which goes by the `match` and `mask` columns; and
what a well-formed operation is. A range with `MINR > MAXR` is well formed: it is a legal command that is
answered with `InvalidRange` (R67).
-/

namespace Sys2Proof

/-- The values of `OP` that name an operation: 0x1..0xC (R66; R71 (a) for the others). -/
def opLegal (op : BitVec 4) : Bool := decide (1 ≤ op.toNat) && decide (op.toNat ≤ 12)

/-- The column "uses `M`" of R66: SLYR, FRND, KSCH, RNDF, RNDB. -/
def usesMode (op : BitVec 4) : Bool := op.toNat ∈ [1, 4, 6, 7, 8]

/-- The column "uses `T`" of R66: FRND, RNDF, RNDB. -/
def usesTrace (op : BitVec 4) : Bool := op.toNat ∈ [4, 7, 8]

/-- The column "uses `MINR`,`MAXR`" of R66: RNDF, RNDB, RANK. -/
def usesRange (op : BitVec 4) : Bool := op.toNat ∈ [7, 8, 12]

/-- The fields name an operation, and every field it does not use is 0 (R71 (a), (b)). -/
def Fields.wf (f : Fields) : Bool :=
  opLegal f.op
    && (usesMode f.op || f.m == 0)
    && (usesTrace f.op || f.t == 0)
    && (usesRange f.op || (f.minr == 0 && f.maxr == 0))

/-- The round indices of an operation are in 0..31 (R67). Their type says so already, so every term of
`Instr` is well formed: nothing wider can be written (R68, R69). -/
def Instr.wf : Instr → Bool
  | .rndf _ _ lo hi => decide (lo.val ≤ 31) && decide (hi.val ≤ 31)
  | .rndb _ _ lo hi => decide (lo.val ≤ 31) && decide (hi.val ≤ 31)
  | .rank lo hi => decide (lo.val ≤ 31) && decide (hi.val ≤ 31)
  | .slyr _ | .plyr | .pinv | .frnd _ _ | .rrev | .ksch _ | .encb | .decb | .wght => true

end Sys2Proof
end

