-- ==== Sys2Proof/Decode.lean ====
section
/-!
DEFINITION. The decoder of command words (spec/30_encoding.md rules R66, R70, R71), total on all 65,536
words and rejecting by name, and after it the encoder, written from the same tables (R65, R66). The
decoder goes by the rows' `match` and `mask`; the encoder puts the five fields of `C16` side by side.
-/

namespace Sys2Proof

/-- Why a word is no command (R71). Both are answered with `IllegalCommand` (R181). -/
inductive DecodeReject where
  /-- R71 (a): `OP` is 0x0, 0xD, 0xE or 0xF. -/
  | illegalOp
  /-- R71 (b): a field the operation does not use is not 0. -/
  | reservedField
  deriving DecidableEq, Repr

/-- The mode flag `M`, bit 11: 0 is `REAL`, 1 is `DIFF` (R8, R65). -/
def modeOf (w : CmdWord) : Mode := if w.getLsbD 11 then .diff else .real

/-- The trace flag `T`, bit 10 (R26, R65). -/
def traceOf (w : CmdWord) : Bool := w.getLsbD 10

/-- `MINR`, bits 9:5, the unsigned value of its bits (R65, R67). -/
def minrOf (w : CmdWord) : Round := (w.extractLsb' 5 5).toFin

/-- `MAXR`, bits 4:0 (R65, R67). -/
def maxrOf (w : CmdWord) : Round := (w.extractLsb' 0 5).toFin

/-- One row of the map: the word selects it when `(w & mask) == match`; else a bit the row reserves is 1
(R66, R70). -/
def row (mask pattern w : CmdWord) (i : Instr) : Except DecodeReject Instr :=
  if w &&& mask = pattern then .ok i else .error .reservedField

/-- The decoder of R70: the row of `OP = w[15:12]`, then the reserved bits of that row. -/
def decode (w : CmdWord) : Except DecodeReject Instr :=
  match (w.extractLsb' 12 4).toNat with
  | 0x1 => row 0xF7FF 0x1000 w (.slyr (modeOf w))
  | 0x2 => row 0xFFFF 0x2000 w .plyr
  | 0x3 => row 0xFFFF 0x3000 w .pinv
  | 0x4 => row 0xF3FF 0x4000 w (.frnd (modeOf w) (traceOf w))
  | 0x5 => row 0xFFFF 0x5000 w .rrev
  | 0x6 => row 0xF7FF 0x6000 w (.ksch (modeOf w))
  | 0x7 => row 0xF000 0x7000 w (.rndf (modeOf w) (traceOf w) (minrOf w) (maxrOf w))
  | 0x8 => row 0xF000 0x8000 w (.rndb (modeOf w) (traceOf w) (minrOf w) (maxrOf w))
  | 0x9 => row 0xFFFF 0x9000 w .encb
  | 0xA => row 0xFFFF 0xA000 w .decb
  | 0xB => row 0xFFFF 0xB000 w .wght
  | 0xC => row 0xFC00 0xC000 w (.rank (minrOf w) (maxrOf w))
  | _ => .error .illegalOp

/-- The operation in a word given by the opcode table's numbering. Every command is one 16-bit word
(R65, R72), so `w` is the word itself with the bits above `nbits` zero; there is no longer command
(assumption log 15). -/
def decodeTableWord (nbits w : Nat) : Option Instr :=
  if nbits ≤ 16 then (decode (BitVec.ofNat 16 (w % 2 ^ nbits))).toOption else none

/-- The bit of a mode: `REAL` 0, `DIFF` 1 (R8). -/
def modeBit : Mode → BitVec 1
  | .real => 0
  | .diff => 1

/-- The bit of a trace flag (R26). -/
def traceBit (t : Bool) : BitVec 1 := BitVec.ofBool t

/-- A round index as a 5-bit field (R67). -/
def roundField (r : Round) : BitVec 5 := BitVec.ofFin r

/-- The fields of an operation's word; a field the operation does not use is 0 (R65, R66, R71). -/
def fieldsOf : Instr → Fields
  | .slyr m => ⟨0x1, modeBit m, 0, 0, 0⟩
  | .plyr => ⟨0x2, 0, 0, 0, 0⟩
  | .pinv => ⟨0x3, 0, 0, 0, 0⟩
  | .frnd m t => ⟨0x4, modeBit m, traceBit t, 0, 0⟩
  | .rrev => ⟨0x5, 0, 0, 0, 0⟩
  | .ksch m => ⟨0x6, modeBit m, 0, 0, 0⟩
  | .rndf m t lo hi => ⟨0x7, modeBit m, traceBit t, roundField lo, roundField hi⟩
  | .rndb m t lo hi => ⟨0x8, modeBit m, traceBit t, roundField lo, roundField hi⟩
  | .encb => ⟨0x9, 0, 0, 0, 0⟩
  | .decb => ⟨0xA, 0, 0, 0, 0⟩
  | .wght => ⟨0xB, 0, 0, 0, 0⟩
  | .rank lo hi => ⟨0xC, 0, 0, roundField lo, roundField hi⟩

/-- The five fields side by side, `OP` in the high bits (R65). -/
def wordOfFields (f : Fields) : CmdWord := f.op ++ f.m ++ f.t ++ f.minr ++ f.maxr

/-- The five fields of a word (R65). -/
def fieldsOfWord (w : CmdWord) : Fields :=
  ⟨w.extractLsb' 12 4, w.extractLsb' 11 1, w.extractLsb' 10 1, w.extractLsb' 5 5, w.extractLsb' 0 5⟩

/-- The command word of an operation. -/
def encode (i : Instr) : CmdWord := wordOfFields (fieldsOf i)

end Sys2Proof
end

