-- ==== Sys2Proof/Config.lean ====
section
/-!
DEFINITION. What is fixed for the machine: the numbers the source fixes (spec/00_scope.md rule R5) and the
one parameter the source names without giving its value, `Tables` (rule R6). The default contents of
`Tables` are in Machine/Tables.lean. The spec leaves no result value open, so there is no free value.
-/

namespace Sys2Proof.Config

/-- `KS_ROT`: left rotation of the key state, width 80 (R5). -/
abbrev ksRot : Nat := 29
/-- `KS_CTR_POS`: the bit position the round index is shifted to (R5). -/
abbrev ksCtrPos : Nat := 46
/-- `FEISTEL_ROT`: rotation of `X0`, width 32 (R5). -/
abbrev feistelRot : Nat := 8
/-- `DIFF_SAT`: what the differential table gives for a nonzero input (R5). -/
abbrev diffSat : Nibble := 0xF
/-- `NCAND = 77 = 80 − 4 + 1` (R5). -/
abbrev nCand : Nat := 77
/-- The largest trail, one vector per round (R5, R22). -/
abbrev maxTrail : Nat := 32
/-- The largest inner-state trace, one word per round and the final pair (R23). -/
abbrev maxTrace : Nat := 34

/-- The parameter `Tables` (R6): ten substitution tables, which need not pass the reset check (R180), and a
permutation of the eight nibble positions. That `p` is a permutation is a precondition of the parameter
and not a fault of the machine (U4, D32), so it comes with its proof. -/
structure Tables where
  sbox : Vector SBox 10
  p    : Vector Lane 8
  perm : p.toList.Nodup
  deriving DecidableEq, Repr

end Sys2Proof.Config
end

