-- ==== Sys2Proof/Machine/Utilities.lean ====
section
/-!
DEFINITION. The fixed-width utilities of spec/40_utilities.md rules R85 to R90: `mask`, `ToArray`,
`ArrToInt`, `RotL`, `RotR`. They take unbounded naturals and truncate (R90); the datapath uses them at
width 8 nibbles, 32 bits and 80 bits.
-/

namespace Sys2Proof.Machine

/-- Which nibble stands at index 0 of a nibble array (R86). -/
inductive NibbleOrder where
  | lsnFirst
  | msnFirst
  deriving DecidableEq, Repr

/-- `mask(n)`, the natural `2^n − 1` (R85). -/
def mask (n : Nat) : Nat := 2 ^ n - 1

/-- `(v >> 4i) & 0xF`: nibble `i` of `v`, nibble 0 the least significant (spec/00_scope.md section 7). -/
def nibbleAt (v i : Nat) : Nibble := BitVec.ofNat 4 (v >>> (4 * i))

/-- `ToArray(v, w, order)`: `v`, truncated to `w` nibbles, as an array of nibbles (R86). -/
def toArray (v w : Nat) (order : NibbleOrder) : Vector Nibble w :=
  let v' := v &&& mask (4 * w)
  match order with
  | .lsnFirst => Vector.ofFn fun i => nibbleAt v' i
  | .msnFirst => Vector.ofFn fun i => nibbleAt v' (w - 1 - i)

/-- The natural whose nibbles, least significant first, are these: the sum of `a[i] << 4i` (R87). -/
def nibblesToNat : List Nibble → Nat
  | [] => 0
  | n :: rest => n.toNat + 16 * nibblesToNat rest

/-- `ArrToInt(a, order)`, the inverse of `ToArray` (R87). -/
def arrToInt {w : Nat} (a : Vector Nibble w) (order : NibbleOrder) : Nat :=
  match order with
  | .lsnFirst => nibblesToNat a.toList
  | .msnFirst => nibblesToNat a.toList.reverse

/-- `RotL(v, a, w)`: the low `w` bits of `v` rotated left by `a` places, the amount modulo the width (R88,
D15). -/
def rotL (v a w : Nat) : BitVec w :=
  let v' := v &&& mask w
  let a' := a % w
  if a' = 0 then BitVec.ofNat w v' else BitVec.ofNat w (v' <<< a' ||| v' >>> (w - a'))

/-- `RotR(v, a, w)`: the same to the right (R89). -/
def rotR (v a w : Nat) : BitVec w :=
  let v' := v &&& mask w
  let a' := a % w
  if a' = 0 then BitVec.ofNat w v' else BitVec.ofNat w (v' >>> a' ||| v' <<< (w - a'))

/-- The eight nibbles of a 32-bit word, index 0 the least significant: `ToArray(x, 8, LSN_FIRST)` (R52,
R101). -/
def lanes (x : Word) : Vector Nibble 8 := toArray x.toNat 8 .lsnFirst

/-- The word of eight nibbles: `ArrToInt(a, LSN_FIRST)` (R101). -/
def ofLanes (a : Vector Nibble 8) : Word := BitVec.ofNat 32 (arrToInt a .lsnFirst)

end Sys2Proof.Machine
end

