-- ==== Sys2Proof/Machine/Flags.lean ====
section
/-!
DEFINITION. What the two operation flags decide, and the activity flags. The block has no condition codes
(spec/10_state.md rule R26): the mode flag `M` chooses the combine operator (spec/40_utilities.md rule
R91), the trace flag `T` decides whether a response carries the trace (R29), and `Nz`, `Act` and `Pop8`
(R93, spec/41_round_function.md rule R102) compute and count the activity flags of the S-boxes.
-/

namespace Sys2Proof.Machine

/-- `Combine(a, b, m)`: XOR in real mode, OR in differential mode (R91). -/
def combine {w : Nat} (a b : BitVec w) : Mode → BitVec w
  | .real => a ^^^ b
  | .diff => a ||| b

/-- `Nz(x)`: 1 when the nibble is not 0, else 0 (R93). -/
def nz (x : Nibble) : Nat := if x = 0 then 0 else 1

/-- The natural whose bit `i` is the `i`-th flag: the sum of `f[i] << i` (R102). -/
def flagsToNat : List Nat → Nat
  | [] => 0
  | f :: rest => f + 2 * flagsToNat rest

/-- The activity flags of eight nibbles, bit `i` the flag of nibble `i` (R102, R120). -/
def activity (a : Vector Nibble 8) : ActVec := BitVec.ofNat 8 (flagsToNat (a.toList.map nz))

/-- `Act(z)`: the activity vector of a substituted word (R102). -/
def act (z : Word) : ActVec := activity (lanes z)

/-- `Pop8(v)`: the number of 1 bits of an activity vector (R93). -/
def pop8 (v : ActVec) : Nat := ((List.finRange 8).map fun i => (v.getLsbD i).toNat).sum

/-- A part of the response that is there when the trace flag is 1 and absent when it is 0 (R26, R29). -/
def whenTraced {α : Type} (t : Bool) (x : α) : Option α := if t then some x else none

end Sys2Proof.Machine
end

