-- ==== Sys2Proof/Machine/Tables.lean ====
section
/-!
DEFINITION. The constant tables (spec/10_state.md rules R13 to R18): their default contents, the
differential table, the read-only state that holds them, and what the reset sequence computes from them
(spec/70_reset_and_hazards.md rule R200).
-/

namespace Sys2Proof.Machine

/-- The read-only state: `S[0..9]`, `DS`, `P` and `PINV` (R13, R15, R16). No operation writes it (R61). -/
structure Rom where
  sbox : Vector SBox 10
  ds   : SBox
  p    : Vector Lane 8
  pinv : Vector Lane 8
  deriving DecidableEq, Repr

/-- The default of `Tables.S`: the S-boxes of the published LBlock cipher (R14, assumption log 7). -/
def defaultSbox : Vector SBox 10 := #v[
  #v[14,  9, 15,  0, 13,  4, 10, 11,  1,  2,  8,  3,  7,  6, 12,  5],
  #v[ 4, 11, 14,  9, 15, 13,  0, 10,  7, 12,  5,  6,  2,  8,  1,  3],
  #v[ 1, 14,  7, 12, 15, 13,  0,  6, 11,  5,  9,  3,  2,  4,  8, 10],
  #v[ 7,  6,  8, 11,  0, 15,  3, 14,  9, 10, 12, 13,  5,  2,  4,  1],
  #v[14,  5, 15,  0,  7,  2, 12, 13,  1,  8,  4,  9, 11, 10,  6,  3],
  #v[ 2, 13, 11, 12, 15, 14,  0,  9,  7, 10,  6,  3,  1,  8,  4,  5],
  #v[11,  9,  4, 14,  0, 15, 10, 13,  6, 12,  5,  7,  3,  8,  1,  2],
  #v[13, 10, 15,  0, 14,  4,  9, 11,  2,  1,  8,  3,  7,  5, 12,  6],
  #v[ 8,  7, 14,  5, 15, 13,  0,  6, 11, 12,  9, 10,  2,  4,  1,  3],
  #v[11,  5, 15,  0,  7,  2,  9, 13,  4,  8,  1, 12, 14, 10,  3,  6]]

/-- The default of `Tables.P`: output nibble `i` is input nibble `P[i]` (R17, assumption log 8). -/
def defaultP : Vector Lane 8 := #v[1, 3, 0, 2, 5, 7, 4, 6]

/-- The default of the parameter `Tables` (R6). -/
def defaultTables : Config.Tables := ⟨defaultSbox, defaultP, by decide⟩

/-- The differential table `DS`: 0 at 0, saturated at every other index (R15). -/
def diffTable : SBox := Vector.ofFn fun x => if x.val = 0 then 0 else Config.diffSat

/-- The source's test of one table: its entries, sorted, are 0, 1, ..., 15 (R13, R200). -/
def sboxBijective (t : SBox) : Bool :=
  (t.toList.map BitVec.toNat).insertionSort (· ≤ ·) == List.range 16

/-- The outcome of the reset check: some table of the ten fails the test (R200). -/
def tableFault (s : Vector SBox 10) : Bool := !(s.toList.all sboxBijective)

/-- The loop `for i from 0 to 7: PINV[P[i]] <- i` of the reset sequence (R200). Each entry is written when
`p` is a permutation, so what the array holds before the loop does not matter then. -/
def invertP (p : Vector Lane 8) : Vector Lane 8 :=
  (List.finRange 8).foldl (fun pinv i => pinv.set p[i].val i) (Vector.replicate 8 0)

/-- The read-only state the reset sequence leaves (R35, R200). -/
def romOf (tb : Config.Tables) : Rom := ⟨tb.sbox, diffTable, tb.p, invertP tb.p⟩

end Sys2Proof.Machine
end

