-- ==== Sys2Proof/Machine/State.lean ====
section
/-!
DEFINITION. The state of the LBlock core as plain data (spec/10_state.md): the read-only tables, the sticky
flag `TFAULT`, the working registers, and the two interface records while they exist; the reasons a step
can stop; and the state after reset (rule R35, spec/70_reset_and_hazards.md rule R200).
-/

namespace Sys2Proof.Machine

/-- `REQ.TRI`: a trail as the host hands it in, a 6-bit count and 32 vectors (R27). A count above 32 can be
presented and is an illegal command (R69, R71 (c)). -/
structure TrailOperand where
  n : BitVec 6
  v : Vector ActVec 32
  deriving DecidableEq, Repr

/-- `REQ`, the request record (R27). -/
structure Request where
  cmd : CmdWord
  a   : Block
  key : Key
  rki : Vector Word 32
  tri : TrailOperand
  deriving DecidableEq, Repr

/-- A recorded trail, `TRK`, `TRO` and `TR`: a 6-bit count and an array of 32 vectors (R7, R22, R24, R28). The
entries at the count and beyond hold no meaning (R22) and are absent (assumption log 12). -/
structure Trail where
  n : BitVec 6
  v : Vector (Option ActVec) Config.maxTrail
  deriving DecidableEq, Repr

/-- A recorded inner-state trace, `IST` and `ISO`: a 6-bit count and an array of 34 words (R7, R23, R28). The
entries at the count and beyond hold no meaning and are absent (assumption log 12). -/
structure Trace where
  n : BitVec 6
  v : Vector (Option Word) Config.maxTrace
  deriving DecidableEq, Repr

/-- One KeyDifferenceCandidate (R24). -/
structure Candidate where
  pos : BitVec 7
  kd  : Key
  drk : Vector Word 32
  tr  : Trail
  wt  : WeightBits
  deriving DecidableEq, Repr

/-- `RSP`, the response record (R28). A field that the operation does not write is not part of the response
and is absent, not zero (U6). -/
structure Response where
  err  : BitVec 3
  r    : Option Block
  av   : Option ActVec
  rko  : Option (Vector Word 32)
  tro  : Option Trail
  iso  : Option Trace
  wt   : Option WeightBits
  cndo : Option (Vector Candidate 77)
  deriving DecidableEq, Repr

/-- The error conditions of R177, and completion. -/
inductive ErrCode where
  | ok
  | invalidRange
  | emptyTrail
  | tableIntegrity
  | illegalCommand
  deriving DecidableEq, Repr

/-- Why the machine stops. The spec's own errors are not here: each is an answer and the machine goes on
(spec/60_exceptions.md rules R184, R186). -/
inductive Fault where
  /-- Raised by `exec` when no request is presented, so that an operation has no operands; `step` never
  raises it. Safe: the hardware has no such move (R203, assumption log 3). -/
  | noRequest
  deriving DecidableEq, Repr

/-- Why the model gives an instruction no meaning. -/
inductive Refusal where
  /-- Raised by `exec`'s refused arms only, for an instruction without a meaning yet; no arm is refused
  now. Safe: nothing can be proved of such an instruction. -/
  | notModelled (mnemonic : String)
  deriving DecidableEq, Repr

/-- The state of the block. -/
structure State where
  /-- the constant tables `S`, `DS`, `P`, `PINV` (R13 to R18) -/
  rom    : Rom
  /-- `TFAULT`, written by reset only (R31) -/
  tfault : Bool
  /-- `X0`, the low half of the block state (R19) -/
  x0     : Word
  /-- `X1`, the high half (R19) -/
  x1     : Word
  /-- `K`, the key-schedule state (R20) -/
  k      : Key
  /-- `RK[0..31]`, the round subkeys (R21) -/
  rk     : Vector Word 32
  /-- `TRK`, the trail tracker, a count 0..32 and 32 vectors (R22) -/
  trk    : Trail
  /-- `IST`, the inner-state trace, a count 0..34 and 34 words (R23) -/
  ist    : Trace
  /-- `CND[0..76]`, the candidate table (R24) -/
  cnd    : Vector Candidate 77
  /-- the round counter `r`, 5 bits (R25) -/
  r      : BitVec 5
  /-- the candidate counter `j`, 7 bits, 0..76 (R25) -/
  j      : BitVec 7
  /-- the request presented and not yet answered, if any (R27, R203) -/
  req    : Option Request
  /-- the response to the last request answered, if any (R28) -/
  rsp    : Option Response
  deriving DecidableEq, Repr

/-- A trail with no round recorded: the count is 0 (R22). -/
def noTrail : Trail := ⟨0, Vector.replicate Config.maxTrail none⟩

/-- A trace with no word recorded: the count is 0 (R23). -/
def noTrace : Trace := ⟨0, Vector.replicate Config.maxTrace none⟩

/-- A candidate record before any RANK; the spec gives it no value (R35, assumption log 4). -/
def blankCandidate : Candidate := ⟨0, 0, Vector.replicate 32 0, noTrail, 0⟩

/-- The state right after reset, for any value of the parameter `Tables` (R35, R200, R201). The working
registers are unspecified and unobservable there; the model names zero and empty (assumption log 4). -/
def State.resetWith (tb : Config.Tables) : State where
  rom    := romOf tb
  tfault := tableFault tb.sbox
  x0     := 0
  x1     := 0
  k      := 0
  rk     := Vector.replicate 32 0
  trk    := noTrail
  ist    := noTrace
  cnd    := Vector.replicate 77 blankCandidate
  r      := 0
  j      := 0
  req    := none
  rsp    := none

/-- The state right after reset with the default `Tables` (R6, R14, R17). -/
def State.reset : State := State.resetWith defaultTables

end Sys2Proof.Machine
end

