-- ==== Sys2Proof/Machine/Operands.lean ====
section
/-!
DEFINITION. The operand forms of a request and the result form of a response: the halves of a 64-bit block
(spec/44_feistel.md rule R138, spec/20_memory.md rule R63), the 32-bit operand and result, and the trail
operand of WGHT (spec/30_encoding.md rules R69, R71 (c)); and the record a sequence of vectors or words is kept
in (spec/10_state.md rules R22, R23).
-/

namespace Sys2Proof.Machine

/-- `B[31:0]`: `X0` of a block, the operand of the 32-bit operations, `currentValue` of RREV (R27, R138). -/
def low32 (b : Block) : Word := b.extractLsb' 0 32

/-- `B[63:32]`: `X1` of a block, `previousValue` of RREV (R27, R138). -/
def high32 (b : Block) : Word := b.extractLsb' 32 32

/-- `Join(X0, X1) = (X1 << 32) | X0` (R138). -/
def join (x0 x1 : Word) : Block := x1 ++ x0

/-- `zext_64`: a 32-bit result in `R[31:0]` with `R[63:32] = 0` (R28, R63); also a 32-bit operand written
for `A` (spec/30_encoding.md rule R73). -/
def zext64 (x : Word) : Block := x.setWidth 64

/-- The largest count of a trail operand (R69). -/
def trailCountLegal (n : BitVec 6) : Bool := decide (n.toNat ≤ Config.maxTrail)

/-- The vectors of a trail operand: those at index `TRI.n` and above are ignored (R163). -/
def trailVectors (t : TrailOperand) : List ActVec := t.v.toList.take t.n.toNat

/-- The record of a sequence of vectors: `n <- len`, and `v[k]` the vector number `k` (R22, R142, R146). -/
def trailRecord (l : List ActVec) : Trail := ⟨BitVec.ofNat 6 l.length, Vector.ofFn fun k => l[k.val]?⟩

/-- The record of a sequence of words: `n <- len`, and `v[k]` the word number `k` (R23, R142, R146). -/
def traceRecord (l : List Word) : Trace := ⟨BitVec.ofNat 6 l.length, Vector.ofFn fun k => l[k.val]?⟩

/-- The recorded vectors `v[0], ..., v[n-1]` (R22). -/
def trailEntries (t : Trail) : List ActVec := (t.v.toList.take t.n.toNat).filterMap id

/-- The recorded words `v[0], ..., v[n-1]` (R23). -/
def traceEntries (t : Trace) : List Word := (t.v.toList.take t.n.toNat).filterMap id

end Sys2Proof.Machine
end

