-- ==== Sys2Proof/Machine/Ops.lean ====
section
/-!
DEFINITION. The named operations on the state: presenting and fetching a request (spec/70 rule R203),
answering it, the error response (spec/60_exceptions.md rules R177, R184), the frame every operation runs
in (R32, R180, R185), and the writes of the working registers (spec/10_state.md section 2).
-/

namespace Sys2Proof.Machine

/-- What a step answers. -/
abbrev Result := Host.Outcome State Fault Refusal

/-- The error codes (R177). -/
def errBits : ErrCode → BitVec 3
  | .ok => 0
  | .invalidRange => 1
  | .emptyTrail => 2
  | .tableIntegrity => 3
  | .illegalCommand => 4

/-- A response with the code and no other field (R184); an operation adds the fields it writes. -/
def responseOf (e : ErrCode) : Response := ⟨errBits e, none, none, none, none, none, none, none⟩

/-- The response of a completed operation before its result fields are written. -/
def done : Response := responseOf .ok

/-- The end of an operation: the response is handed back and the block is ready for the next request (R203,
R206). -/
def answer (s : State) (rsp : Response) : State := { s with req := none, rsp := some rsp }

/-- TAKING AN ERROR: the response carries the code and nothing else, and nothing else changes: no register
is saved, no mode changes, control goes nowhere (R184). There is no return beside it: after an error the
block is ready as after a success (R186). -/
def raiseError (s : State) (e : ErrCode) : State := answer s (responseOf e)

/-- What every operation does around its own work. While `TFAULT = 1` the answer is `TableIntegrity`
whatever the request (R180, first in the priority of R185). Otherwise the work gives the next state, or
the error that ends it with no effect (R176, R184). With no request there is nothing to work on
(assumption log 3). -/
def serve (s : State) (work : Request → Except ErrCode State) : Result :=
  match s.req with
  | none => .fault .noRequest
  | some q =>
    if s.tfault then .next (raiseError s .tableIntegrity)
    else
      match work q with
      | .ok s' => .next s'
      | .error e => .next (raiseError s e)

/-- The answer to a word that is no command (R71, R181). -/
def serveIllegal (s : State) : Result := serve s fun _ => .error .illegalCommand

/-- A block with no request waits (R201, assumption log 2). -/
def waitForRequest (s : State) : Result := .next s

/-- The command word of the request presented, if there is one (R25, R65). -/
def fetchCommand (s : State) : Option CmdWord := s.req.map Request.cmd

/-- The work of a range-bounded operation, after its range is checked and before anything is computed
(R141, R178). -/
def withRange {α : Type} (lo hi : Round) (work : α) : Except ErrCode α :=
  if hi < lo then .error .invalidRange else .ok work

/-- `K` and `RK` after a key schedule, whose last update is round 31 (R20, R21, R25). -/
def holdSchedule (s : State) (k : Key) (rk : Vector Word 32) : State := { s with k := k, rk := rk, r := 31 }

/-- `RK` loaded from `REQ.RKI` (R21, R63). -/
def holdSubkeys (s : State) (rk : Vector Word 32) : State := { s with rk := rk }

/-- `X0` and `X1` after the last round of a run, and the counter at that round (R19, R25). -/
def holdRun (s : State) (x0 x1 : Word) (last : Round) : State :=
  { s with x0 := x0, x1 := x1, r := BitVec.ofFin last }

/-- `TRK` after a run that records a trail (R22, R160). -/
def holdTrail (s : State) (trk : Trail) : State := { s with trk := trk }

/-- `IST` after a run that records the inner states (R23). -/
def holdTrace (s : State) (ist : Trace) : State := { s with ist := ist }

/-- `CND` after a ranking, whose last candidate is number 76 (R24, R25). -/
def holdCandidates (s : State) (cnd : Vector Candidate 77) : State := { s with cnd := cnd, j := 76 }

/-- The host presents a request; it can do so only when none is pending, which is the one move of the
outside world (R203, U5). -/
def present (q : Request) (s : State) : Option State :=
  match s.req with
  | none => some { s with req := some q }
  | some _ => none

/-- A request with every operand 0, for a command word that comes with none (assumption log 14). -/
def blankRequest (w : CmdWord) : Request := ⟨w, 0, 0, Vector.replicate 32 0, ⟨0, Vector.replicate 32 0⟩⟩

/-- The command word alone replaced in the request presented, or presented with zero operands where there is
none (assumption log 14). -/
def presentWord (w : CmdWord) (s : State) : State :=
  match s.req with
  | none => { s with req := some (blankRequest w) }
  | some q => { s with req := some { q with cmd := w } }

end Sys2Proof.Machine
end

