-- ==== Sys2Proof/Machine/RoundFunction.lean ====
section
/-!
DEFINITION. The round function and its layers (spec/41_round_function.md rules R100 to R105), and the
meanings of SLYR, PLYR, PINV and FRND (rules R107 to R110).
-/

namespace Sys2Proof.Machine

/-- `Sub(t, x, m)`: table `t` in real mode, `DS` whatever `t` in differential mode (R100). -/
def sub (rom : Rom) (t : Fin 10) (x : Nibble) : Mode → Nibble
  | .real => rom.sbox[t][x.toNat]'x.isLt
  | .diff => rom.ds[x.toNat]'x.isLt

/-- The table that works on nibble `i` of the round function is table `i` (R52, R101). -/
def laneTable (i : Lane) : Fin 10 := Fin.castLE (by decide) i

/-- `SLayer(x, m)`: table `i` applied to nibble `i`, in eight independent lanes (R101). -/
def sLayer (rom : Rom) (x : Word) (m : Mode) : Word :=
  let n := lanes x
  ofLanes (Vector.ofFn fun i : Lane => sub rom (laneTable i) n[i] m)

/-- `PLayer(z)`: output nibble `i` is input nibble `P[i]` (R103, D8). -/
def pLayer (rom : Rom) (z : Word) : Word :=
  let n := lanes z
  ofLanes (Vector.ofFn fun i : Lane => n[rom.p[i]])

/-- `PInvLayer(u)`: output nibble `i` is input nibble `PINV[i]` (R104). -/
def pInvLayer (rom : Rom) (u : Word) : Word :=
  let n := lanes u
  ofLanes (Vector.ofFn fun i : Lane => n[rom.pinv[i]])

/-- `F(x, m)`: the permuted S-layer output, and the activity vector of the S-box outputs before they are
permuted (R102, R105). -/
def roundF (rom : Rom) (x : Word) (m : Mode) : Word × ActVec :=
  let z := sLayer rom x m
  (pLayer rom z, act z)

/-- SLYR (R107). -/
def execSlyr (m : Mode) (s : State) : Result :=
  serve s fun q => .ok (answer s { done with r := some (zext64 (sLayer s.rom (low32 q.a) m)) })

/-- PLYR (R108). -/
def execPlyr (s : State) : Result :=
  serve s fun q => .ok (answer s { done with r := some (zext64 (pLayer s.rom (low32 q.a))) })

/-- PINV (R109). -/
def execPinv (s : State) : Result :=
  serve s fun q => .ok (answer s { done with r := some (zext64 (pInvLayer s.rom (low32 q.a))) })

/-- FRND (R110). It records its vector in the response only, not in `TRK` (assumption log 16). -/
def execFrnd (m : Mode) (t : Bool) (s : State) : Result :=
  serve s fun q =>
    let f := roundF s.rom (low32 q.a) m
    .ok (answer s { done with r := some (zext64 f.1), av := whenTraced t f.2 })

end Sys2Proof.Machine
end

