-- ==== Sys2Proof/Machine/ReverseRound.lean ====
section
/-!
DEFINITION. The reverse round function (spec/42_reverse_round.md rules R120, R122) and the meaning of RREV
(rule R121).
-/

namespace Sys2Proof.Machine

/-- `RevF(cur, prev)`: each nibble of the inverse-permuted current value OR-ed into the same nibble of the
previous value, and the flags of the nibbles that are nonzero after it. No table, no rotation, no key
(R120, R122). -/
def revF (rom : Rom) (cur prev : Word) : Word × ActVec :=
  let u := lanes (pInvLayer rom cur)
  let p := lanes prev
  let e := Vector.ofFn fun i : Lane => p[i] ||| u[i]
  (ofLanes e, activity e)

/-- RREV (R121). -/
def execRrev (s : State) : Result :=
  serve s fun q =>
    let e := revF s.rom (low32 q.a) (high32 q.a)
    .ok (answer s { done with r := some (zext64 e.1), av := some e.2 })

end Sys2Proof.Machine
end

