-- ==== Sys2Proof/Machine/KeySchedule.lean ====
section
/-!
DEFINITION. The key schedule (spec/43_key_schedule.md rules R127 to R130) and the meaning of KSCH (rule
R131).
-/

namespace Sys2Proof.Machine

/-- The subkey field `K[79:48]` of a key state (R52, R128). -/
def subkeyOf (k : Key) : Word := k.extractLsb' 48 32

/-- Step 3 of an update: in real mode the round index is XORed in at bit 46, in differential mode it is left
out (R129, R130). -/
def injectCounter (k : Key) (r : Nat) : Mode → Key
  | .real => k ^^^ BitVec.ofNat 80 (r <<< Config.ksCtrPos)
  | .diff => k

/-- `KsUpdate(K, r, m)`: rotate by 29, table 9 on the top nibble and table 8 on the next, then the counter
(R129). -/
def ksUpdate (rom : Rom) (k : Key) (r : Nat) (m : Mode) : Key :=
  let k1 := rotL k.toNat Config.ksRot 80
  let k2 : Key := sub rom 9 (k1.extractLsb' 76 4) m ++ sub rom 8 (k1.extractLsb' 72 4) m ++ k1.extractLsb' 0 72
  injectCounter k2 r m

/-- The key state at round `r`: the key itself at round 0, one update per round after it (R127). -/
def keyState (rom : Rom) (key : Key) (m : Mode) : Nat → Key
  | 0 => key
  | r + 1 => ksUpdate rom (keyState rom key m r) (r + 1) m

/-- `KeySchedule(key, m)`: the subkey of each of the 32 rounds (R127, R128). -/
def keySchedule (rom : Rom) (key : Key) (m : Mode) : Vector Word 32 :=
  Vector.ofFn fun r : Round => subkeyOf (keyState rom key m r)

/-- `K` after the last update, round 31. -/
def finalKey (rom : Rom) (key : Key) (m : Mode) : Key := keyState rom key m 31

/-- KSCH (R131). -/
def execKsch (m : Mode) (s : State) : Result :=
  serve s fun q =>
    let rk := keySchedule s.rom q.key m
    .ok (answer (holdSchedule s (finalKey s.rom q.key m) rk) { done with rko := some rk })

end Sys2Proof.Machine
end

