-- ==== Sys2Proof/Machine/Feistel.lean ====
section
/-!
DEFINITION. The Feistel engine (spec/44_feistel.md rules R138 to R143): one round forward and backward, a
run over a closed range of rounds with its traces; and the meanings of RNDF, RNDB, ENCB and DECB (rules
R146 to R149).
-/

namespace Sys2Proof.Machine

/-- What one round gives: the new halves and the activity vector (R139, R140). -/
structure RoundOut where
  x0 : Word
  x1 : Word
  av : ActVec
  deriving DecidableEq, Repr

/-- What a run gives: the final halves, and the vectors and the words it recorded, in the order they are
returned (R142, R143). -/
structure Run where
  x0  : Word
  x1  : Word
  trk : List ActVec
  ist : List Word
  deriving DecidableEq, Repr

/-- `FwdRound(X0, X1, rk, m)` (R139). -/
def fwdRound (rom : Rom) (x0 x1 rk : Word) (m : Mode) : RoundOut :=
  let f := roundF rom (combine x1 rk m) m
  ⟨x1, combine f.1 (rotL x0.toNat Config.feistelRot 32) m, f.2⟩

/-- `BwdRound(X0, X1, rk, m)` (R140). -/
def bwdRound (rom : Rom) (x0 x1 rk : Word) (m : Mode) : RoundOut :=
  let f := roundF rom (combine x0 rk m) m
  ⟨rotR (combine f.1 x1 m).toNat Config.feistelRot 32, x0, f.2⟩

/-- The loop of R142 and R143 over the given rounds, in the order given: `IST` gets `X0` before each round
and the final `X0`, `X1`; `TRK` gets one vector a round. The traces never feed back. -/
def runRounds (round : Round → Word → Word → RoundOut) : List Round → Word → Word → Run
  | [], x0, x1 => ⟨x0, x1, [], [x0, x1]⟩
  | r :: rest, x0, x1 =>
    let o := round r x0 x1
    let run := runRounds round rest o.x0 o.x1
    ⟨run.x0, run.x1, o.av :: run.trk, x0 :: run.ist⟩

/-- The rounds `lo, lo+1, ..., hi`, none when `lo > hi` (spec/00_scope.md section 7, R142). -/
def roundsUp (lo hi : Round) : List Round := (List.finRange 32).filter fun r => decide (lo ≤ r) && decide (r ≤ hi)

/-- `RunForward(B, RK, m, lo, hi)` once its range is checked (R142). -/
def runForward (rom : Rom) (b : Block) (rk : Vector Word 32) (m : Mode) (lo hi : Round) : Run :=
  runRounds (fun r x0 x1 => fwdRound rom x0 x1 rk[r] m) (roundsUp lo hi) (low32 b) (high32 b)

/-- `RunBackward(B, RK, m, lo, hi)` once its range is checked: the rounds in descending order, both
accumulated sequences reversed word by word (R143, D11). -/
def runBackward (rom : Rom) (b : Block) (rk : Vector Word 32) (m : Mode) (lo hi : Round) : Run :=
  let run := runRounds (fun r x0 x1 => bwdRound rom x0 x1 rk[r] m) (roundsUp lo hi).reverse (low32 b) (high32 b)
  ⟨run.x0, run.x1, run.trk.reverse, run.ist.reverse⟩

/-- The response of a run: the joined halves, and the traces when the trace flag is 1 (R146, R147). -/
def runResponse (run : Run) (t : Bool) : Response :=
  { done with r := some (join run.x0 run.x1), tro := whenTraced t (trailRecord run.trk),
              iso := whenTraced t (traceRecord run.ist) }

/-- The end of RNDF and RNDB: the working registers hold what the run left, whether or not the traces are
returned (R142, R143, assumption log 5). -/
def finishRun (s : State) (rki : Vector Word 32) (run : Run) (last : Round) (t : Bool) : State :=
  let s1 := holdRun (holdSubkeys s rki) run.x0 run.x1 last
  answer (holdTrace (holdTrail s1 (trailRecord run.trk)) (traceRecord run.ist)) (runResponse run t)

/-- The end of ENCB and DECB: key schedule and halves, no trace (R51, R148, R149, assumption log 5). -/
def finishCipher (s : State) (key : Key) (rk : Vector Word 32) (run : Run) (last : Round) : State :=
  answer (holdRun (holdSchedule s (finalKey s.rom key .real) rk) run.x0 run.x1 last) (runResponse run false)

/-- RNDF (R146). -/
def execRndf (m : Mode) (t : Bool) (lo hi : Round) (s : State) : Result :=
  serve s fun q => withRange lo hi (finishRun s q.rki (runForward s.rom q.a q.rki m lo hi) hi t)

/-- RNDB (R147). -/
def execRndb (m : Mode) (t : Bool) (lo hi : Round) (s : State) : Result :=
  serve s fun q => withRange lo hi (finishRun s q.rki (runBackward s.rom q.a q.rki m lo hi) lo t)

/-- ENCB: real mode, rounds 0..31, no trace (R148). -/
def execEncb (s : State) : Result :=
  serve s fun q =>
    let rk := keySchedule s.rom q.key .real
    .ok (finishCipher s q.key rk (runForward s.rom q.a rk .real 0 31) 31)

/-- DECB: real mode, rounds 31..0, no trace (R149). -/
def execDecb (s : State) : Result :=
  serve s fun q =>
    let rk := keySchedule s.rom q.key .real
    .ok (finishCipher s q.key rk (runBackward s.rom q.a rk .real 0 31) 0)

end Sys2Proof.Machine
end

