-- ==== Sys2Proof/Machine/Search.lean ====
section
/-!
DEFINITION. The trail weight and the candidate search (spec/45_trail_and_search.md rules R160 to R168), and
the meanings of WGHT (rule R163) and RANK (rule R167).
-/

namespace Sys2Proof.Machine

/-- The sum over the recorded rounds of the active S-boxes (R161). -/
def trailWeight (tr : List ActVec) : Nat := (tr.map pop8).sum

/-- `Weight(TR)`: a trail with no recorded round is an error, not a zero (R161, R162). -/
def weight (tr : List ActVec) : Except ErrCode Nat :=
  if tr = [] then .error .emptyTrail else .ok (trailWeight tr)

/-- The 9-bit weight field (R28). -/
def weightBits (n : Nat) : WeightBits := BitVec.ofNat 9 n

/-- `KD(j) = 0xF << j` (R164, D12). -/
def keyDifference (j : Fin 77) : Key := 0xF#80 <<< j.val

/-- The run of one candidate: forward, differential, from the input difference as the state entering `lo`,
with the candidate's own subkey differences (R165, D13). -/
def candidateRun (rom : Rom) (d : Block) (lo hi : Round) (j : Fin 77) : Run :=
  runForward rom d (keySchedule rom (keyDifference j) .diff) .diff lo hi

/-- `Evaluate(j, D, lo, hi)` on a valid range, where the trail is not empty (R162, R165). -/
def evaluate (rom : Rom) (d : Block) (lo hi : Round) (j : Fin 77) : Candidate :=
  let kd := keyDifference j
  let run := candidateRun rom d lo hi j
  { pos := BitVec.ofNat 7 j.val
    kd  := kd
    drk := keySchedule rom kd .diff
    tr  := trailRecord run.trk
    wt  := weightBits (trailWeight run.trk) }

/-- Ascending by weight (R166). -/
abbrev byWeight (a b : Candidate) : Prop := a.wt.toNat ≤ b.wt.toNat

/-- The 77 candidates in enumeration order, then sorted by weight with an insertion sort, which keeps the
order of equal weights (R164, R166). -/
def rankList (rom : Rom) (d : Block) (lo hi : Round) : List Candidate :=
  ((List.finRange 77).map (evaluate rom d lo hi)).insertionSort byWeight

/-- There are 77 of them (R164). -/
theorem length_rankList (rom : Rom) (d : Block) (lo hi : Round) : (rankList rom d lo hi).length = 77 := by
  simp [rankList]

/-- The candidate table after a ranking (R167). -/
def ranking (rom : Rom) (d : Block) (lo hi : Round) : Vector Candidate 77 :=
  ⟨(rankList rom d lo hi).toArray, by simp [length_rankList]⟩

/-- The working registers after a ranking: those of the last candidate in enumeration order, number 76, and
the sorted table (R19, R20, R21, R22, R24, U9, assumption log 6). -/
def finishRank (s : State) (d : Block) (lo hi : Round) (cnd : Vector Candidate 77) : State :=
  let kd := keyDifference 76
  let run := candidateRun s.rom d lo hi 76
  let s1 := holdSchedule s (finalKey s.rom kd .diff) (keySchedule s.rom kd .diff)
  let s2 := holdCandidates (holdTrail (holdRun s1 run.x0 run.x1 hi) (trailRecord run.trk)) cnd
  answer s2 { done with cndo := some cnd }

/-- WGHT: a count above 32 is an illegal command, a count of 0 an empty trail (R71 (c), R163). -/
def execWght (s : State) : Result :=
  serve s fun q =>
    if trailCountLegal q.tri.n then
      match weight (trailVectors q.tri) with
      | .ok n => .ok (answer s { done with wt := some (weightBits n) })
      | .error e => .error e
    else .error .illegalCommand

/-- RANK (R167). -/
def execRank (lo hi : Round) (s : State) : Result :=
  serve s fun q => withRange lo hi (finishRank s q.a lo hi (ranking s.rom q.a lo hi))

end Sys2Proof.Machine
end

