-- ==== Sys2Proof/Machine/Dispatch.lean ====
section
/-!
DEFINITION. One arm per operation (spec/30_encoding.md rule R66): each is one direct call of its meaning.
-/

namespace Sys2Proof.Machine

/-- What an operation does to the state that holds its request. -/
def exec (i : Instr) (s : State) : Host.Outcome State Fault Refusal :=
  match i with
  | .slyr m => Sys2Proof.Machine.execSlyr m s
  | .plyr => Sys2Proof.Machine.execPlyr s
  | .pinv => Sys2Proof.Machine.execPinv s
  | .frnd m t => Sys2Proof.Machine.execFrnd m t s
  | .rrev => Sys2Proof.Machine.execRrev s
  | .ksch m => Sys2Proof.Machine.execKsch m s
  | .rndf m t lo hi => Sys2Proof.Machine.execRndf m t lo hi s
  | .rndb m t lo hi => Sys2Proof.Machine.execRndb m t lo hi s
  | .encb => Sys2Proof.Machine.execEncb s
  | .decb => Sys2Proof.Machine.execDecb s
  | .wght => Sys2Proof.Machine.execWght s
  | .rank lo hi => Sys2Proof.Machine.execRank lo hi s

end Sys2Proof.Machine
end

