-- ==== Sys2Proof/Machine/Step.lean ====
section
/-!
DEFINITION. One step: the request that is presented is decoded and executed to completion, in one atomic
transition (spec/20_memory.md rule R55, spec/70_reset_and_hazards.md rule R203); a word that is no command
is answered with an error (spec/60_exceptions.md rule R181); with no request the block waits (rule R201).
-/

namespace Sys2Proof.Machine

/-- One step of the block. -/
def step (s : State) : Host.Outcome State Fault Refusal :=
  match fetchCommand s with
  | none => waitForRequest s
  | some w =>
    match decode w with
    | .ok i => exec i s
    | .error _ => serveIllegal s

/-- `s` with the command word `w` in the request the next step takes; the operands of a request `s` already
holds stay, and are 0 where it holds none (assumption log 14). Every command is one 16-bit word, so the
bits above `nbits` are 0 and there are none above 16. -/
def State.withFetchWord (s : State) (nbits w : Nat) : State :=
  presentWord (BitVec.ofNat 16 (w % 2 ^ nbits)) s

end Sys2Proof.Machine
end

