-- ==== Sys2Proof/Machine/Assembler.lean ====
section
/-!
DEFINITION. The assembler notation of spec/30_encoding.md rules R73 and R74 in structured form: a written
command is a name with its suffixes and its range, and `assemble` gives the operation it stands for. The
text itself is not modelled (assumption log 17).
-/

namespace Sys2Proof.Machine

/-- The names that can be written: the twelve mnemonics, and the pseudo-operations of R74 that are names. -/
inductive AsmName where
  | slyr | plyr | pinv | frnd | rrev | ksch | rndf | rndb | encb | decb | wght | rank
  | encrypt | decrypt
  deriving DecidableEq, Repr

/-- `MNEMONIC[.D][.T] [min,max]` (R73). -/
structure AsmLine where
  name  : AsmName
  d     : Bool
  t     : Bool
  range : Option (Round × Round)
  deriving DecidableEq, Repr

/-- `.D` is `M = 1` (R73). -/
def suffixMode (d : Bool) : Mode := if d then .diff else .real

/-- The range written, or the whole cipher 0..31 when none is (R74). -/
def writtenRange (range : Option (Round × Round)) : Round × Round := range.getD (0, 31)

/-- What a line stands for; none when it writes a suffix or a range on an operation that does not use the
field (R73), else the operation, pseudo-operations expanded (R74). -/
def assemble (l : AsmLine) : Option Instr :=
  let rng := writtenRange l.range
  match l.name, l.d, l.t, l.range with
  | .slyr, d, false, none => some (.slyr (suffixMode d))
  | .plyr, false, false, none => some .plyr
  | .pinv, false, false, none => some .pinv
  | .frnd, d, t, none => some (.frnd (suffixMode d) t)
  | .rrev, false, false, none => some .rrev
  | .ksch, d, false, none => some (.ksch (suffixMode d))
  | .rndf, d, t, _ => some (.rndf (suffixMode d) t rng.1 rng.2)
  | .rndb, d, t, _ => some (.rndb (suffixMode d) t rng.1 rng.2)
  | .encb, false, false, none => some .encb
  | .decb, false, false, none => some .decb
  | .wght, false, false, none => some .wght
  | .rank, false, false, _ => some (.rank rng.1 rng.2)
  | .encrypt, false, false, none => some .encb
  | .decrypt, false, false, none => some .decb
  | _, _, _, _ => none

/-- The command word a line stands for. -/
def assembleWord (l : AsmLine) : Option CmdWord := (assemble l).map encode

end Sys2Proof.Machine
end

