-- ==== Sys2Proof/Safety.lean ====
section
/-!
DEFINITION. The vocabulary claims are stated in: what a response is, when a request is ready to be worked
on, what the constant tables must satisfy, which error a request meets (written from the rules on the
fields of the word, not from the decoder), which operation writes what, and the invariant of the machine.
-/

namespace Sys2Proof.Machine

/-- Nibble `i` of a value, nibble 0 the least significant (spec/00_scope.md section 7). -/
def nib {w : Nat} (x : BitVec w) (i : Nat) : Nibble := x.extractLsb' (4 * i) 4

/-- The number of 1 bits of a value. -/
def setBits {w : Nat} (x : BitVec w) : Nat := (List.range w).countP x.getLsbD

/-- Every bit set in `a` is set in `b`. -/
def bitsBelow {w : Nat} (a b : BitVec w) : Prop := a &&& b = a

/-- The response a result hands back, if it is a next state that has one. -/
def responseIn : Result → Option Response
  | .next t => t.rsp
  | .fault _ => none
  | .refused _ => none

/-- The field `R` of the response a result hands back. -/
def resultR (o : Result) : Option Block := (responseIn o).bind Response.r

/-- The vectors recorded in the field `TRO` of the response a result hands back. -/
def resultTrail (o : Result) : Option (List ActVec) := ((responseIn o).bind Response.tro).map trailEntries

/-- A request is presented and the tables passed the reset check (R31, R203). -/
def Ready (s : State) (q : Request) : Prop := s.req = some q ∧ s.tfault = false

/-- The state with its request replaced: what the host presents next, the rest as it is. -/
def ask (s : State) (q : Request) : State := { s with req := some q }

/-- `PINV` is the inverse of `P`, both ways (R16). -/
def InversePermutations (rom : Rom) : Prop := ∀ i : Lane, rom.pinv[rom.p[i]] = i ∧ rom.p[rom.pinv[i]] = i

/-- `DS` is the saturating table of R15. -/
def SaturatingTable (rom : Rom) : Prop := ∀ x : Nibble, rom.ds[x.toNat]'x.isLt = if x = 0 then 0 else 0xF

/-- A table as a function is a bijection of {0,...,15} onto itself (R13). -/
def BijectiveTable (t : SBox) : Prop := Function.Bijective fun x : Fin 16 => t[x]

/-- The value of field `OP` of a command word (R65). -/
def opNumber (w : CmdWord) : Nat := (fieldsOfWord w).op.toNat

/-- R71: the word names no operation or sets a field the operation does not use, or it is WGHT with a trail
of more than 32 vectors. -/
def illegalRequest (q : Request) : Bool :=
  !(fieldsOfWord q.cmd).wf || (opNumber q.cmd == 0xB && decide (32 < q.tri.n.toNat))

/-- R178: RNDF, RNDB or RANK with `MINR > MAXR`. -/
def badRange (q : Request) : Bool :=
  usesRange (fieldsOfWord q.cmd).op && decide ((fieldsOfWord q.cmd).maxr.toNat < (fieldsOfWord q.cmd).minr.toNat)

/-- R179: WGHT of a trail with no recorded round. -/
def emptyTrail (q : Request) : Bool := opNumber q.cmd == 0xB && q.tri.n == 0

/-- The code the request is answered with, in the priority of R185; 0 is completion (R177). -/
def expectedErr (s : State) (q : Request) : Nat :=
  if s.tfault then 3
  else if illegalRequest q then 4
  else if badRange q then 1
  else if emptyTrail q then 2
  else 0

/-- The operations whose response has `R` (R28, R68). -/
def givesBlock : Instr → Bool
  | .slyr _ | .plyr | .pinv | .frnd _ _ | .rrev | .rndf _ _ _ _ | .rndb _ _ _ _ | .encb | .decb => true
  | .ksch _ | .wght | .rank _ _ => false

/-- The operations whose response has `AV`: FRND when traced, RREV always (R28, R68). -/
def givesActivity : Instr → Bool
  | .frnd _ t => t
  | .rrev => true
  | .slyr _ | .plyr | .pinv | .ksch _ | .rndf _ _ _ _ | .rndb _ _ _ _ | .encb | .decb | .wght | .rank _ _ => false

/-- The operations whose response has `TRO` and `ISO`: RNDF and RNDB when traced (R28, R68). -/
def givesTraces : Instr → Bool
  | .rndf _ t _ _ | .rndb _ t _ _ => t
  | .slyr _ | .plyr | .pinv | .frnd _ _ | .rrev | .ksch _ | .encb | .decb | .wght | .rank _ _ => false

/-- KSCH, the operation whose response has `RKO` (R28, R68). -/
def givesSubkeys : Instr → Bool
  | .ksch _ => true
  | .slyr _ | .plyr | .pinv | .frnd _ _ | .rrev | .rndf _ _ _ _ | .rndb _ _ _ _ | .encb | .decb | .wght | .rank _ _ => false

/-- WGHT, the operation whose response has `WT` (R28, R68). -/
def givesWeight : Instr → Bool
  | .wght => true
  | .slyr _ | .plyr | .pinv | .frnd _ _ | .rrev | .ksch _ | .rndf _ _ _ _ | .rndb _ _ _ _ | .encb | .decb | .rank _ _ => false

/-- RANK, the operation whose response has `CNDO` (R28, R68). -/
def givesCandidates : Instr → Bool
  | .rank _ _ => true
  | .slyr _ | .plyr | .pinv | .frnd _ _ | .rrev | .ksch _ | .rndf _ _ _ _ | .rndb _ _ _ _ | .encb | .decb | .wght => false

/-- The operations that run rounds and so write `X0` and `X1`: "by the operations RNDF, RNDB, ENCB, DECB and
RANK and by no other" (R19). -/
def runsTheRounds : Instr → Bool
  | .rndf _ _ _ _ | .rndb _ _ _ _ | .encb | .decb | .rank _ _ => true
  | .slyr _ | .plyr | .pinv | .frnd _ _ | .rrev | .ksch _ | .wght => false

/-- The operations that compute a key schedule and so write `K` (R20). -/
def computesSchedule : Instr → Bool
  | .ksch _ | .encb | .decb | .rank _ _ => true
  | .slyr _ | .plyr | .pinv | .frnd _ _ | .rrev | .rndf _ _ _ _ | .rndb _ _ _ _ | .wght => false

/-- The operations that record a trail in `TRK`: RNDF, RNDB, RANK (R22, R51, assumption log 5). -/
def recordsTrail : Instr → Bool
  | .rndf _ _ _ _ | .rndb _ _ _ _ | .rank _ _ => true
  | .slyr _ | .plyr | .pinv | .frnd _ _ | .rrev | .ksch _ | .encb | .decb | .wght => false

/-- The array is filled exactly below the count: entry `k` is there for `k < n` and absent beyond (R22, R23). -/
def FilledTo {α : Type} {cap : Nat} (v : Vector (Option α) cap) (n : Nat) : Prop :=
  ∀ k : Fin cap, v[k].isSome = decide (k.val < n)

/-- A trail keeps its bound: a count in 0..32, the array filled below it (R22, R69). -/
def Trail.Bounded (t : Trail) : Prop := t.n.toNat ≤ 32 ∧ FilledTo t.v t.n.toNat

/-- A trace keeps its bound: a count in 0..34, the array filled below it (R23, R69). -/
def Trace.Bounded (t : Trace) : Prop := t.n.toNat ≤ 34 ∧ FilledTo t.v t.n.toNat

/-- The value of `OP` a written name stands for, pseudo-operations expanded (R66, R73, R74). -/
def asmOp : AsmName → BitVec 4
  | .slyr => 0x1 | .plyr => 0x2 | .pinv => 0x3 | .frnd => 0x4 | .rrev => 0x5 | .ksch => 0x6
  | .rndf => 0x7 | .rndb => 0x8 | .encb | .encrypt => 0x9 | .decb | .decrypt => 0xA
  | .wght => 0xB | .rank => 0xC

/-- A suffix or a range is written on an operation that does not use the field (R73). -/
def writesUnusedField (l : AsmLine) : Bool :=
  (l.d && !usesMode (asmOp l.name)) || (l.t && !usesTrace (asmOp l.name))
    || (l.range.isSome && !usesRange (asmOp l.name))

/-- The word of a line by its fields, `OP << 12 | M << 11 | T << 10 | MINR << 5 | MAXR` (R65, R73): the range that is
written, 0,31 where an operation that uses one has none (R74), and 0 where it uses none (R66). -/
def writtenWord (l : AsmLine) : Nat :=
  let rng : Nat × Nat := match l.range with
    | some (lo, hi) => (lo.val, hi.val)
    | none => if usesRange (asmOp l.name) then (0, 31) else (0, 0)
  (asmOp l.name).toNat * 2 ^ 12 + l.d.toNat * 2 ^ 11 + l.t.toNat * 2 ^ 10 + rng.1 * 2 ^ 5 + rng.2

/-- The fields of the response are those the rules of R28 and R177 allow. -/
def Response.Legal (rsp : Response) : Prop :=
  rsp.err.toNat ≤ 4
    ∧ (rsp.err ≠ 0 → rsp = ⟨rsp.err, none, none, none, none, none, none, none⟩)
    ∧ (∀ tr, rsp.tro = some tr → tr.Bounded ∧ 1 ≤ tr.n.toNat)
    ∧ (∀ is, rsp.iso = some is → is.Bounded)
    ∧ (∀ tr is, rsp.tro = some tr → rsp.iso = some is → is.n.toNat = tr.n.toNat + 2)
    ∧ (∀ w, rsp.wt = some w → w.toNat ≤ 256)

/-- The bounds of a candidate record (R24): position 0..76, a trail of at most 32 vectors, weight at most 256. -/
def Candidate.Bounded (c : Candidate) : Prop := c.pos.toNat ≤ 76 ∧ c.tr.Bounded ∧ c.wt.toNat ≤ 256

/-- What holds at reset and after every step: the constant tables are as reset leaves them (R15, R16, R200),
`TFAULT` is the outcome of the check of the tables (R31), the trackers keep their bounds (R22, R23), the
candidate counter stays in 0..76 (R25), and the response, if there is one, is legal (R28). -/
def Inv (s : State) : Prop :=
  InversePermutations s.rom
    ∧ SaturatingTable s.rom
    ∧ (s.tfault = false ↔ ∀ t : Fin 10, BijectiveTable s.rom.sbox[t])
    ∧ s.trk.Bounded
    ∧ s.ist.Bounded
    ∧ s.j.toNat ≤ 76
    ∧ (∀ k : Fin 77, s.cnd[k].Bounded)
    ∧ (∀ rsp, s.rsp = some rsp → rsp.Legal)
    ∧ (∀ rsp cn, s.rsp = some rsp → rsp.cndo = some cn → ∀ k : Fin 77, cn[k].Bounded)

end Sys2Proof.Machine
end

