-- ==== Sys2Proof/Certificates/Slice0/Obligations.lean ====
section
/-!
DEFINITION. The statements about the LBlock core, each formalising rules of spec/. They are stated for
every state, and so for every value of the parameter `Tables` (spec/00_scope.md rule R6); where a
statement needs the constant tables to be as reset leaves them, that is a premise, and `Inv` and
`StepKeepsTheInvariant` say that every step keeps it.
-/

open Sys2Proof Sys2Proof.Machine

/-! ### Encoding -/

/-- Decoding the word of an operation gives the operation back, for every operation and every value of its
fields (R65, R66, R70). -/
def Obligations.DecodeOfEncodeIsTheInstruction : Prop :=
  ∀ i : Instr, i.wf = true → decode (encode i) = .ok i

/-- A word that decodes is the word of the operation it decodes to: no two words name the same operation
with the same fields (R65, R66, R71). -/
def Obligations.EncodeOfDecodedIsTheWord : Prop :=
  ∀ (w : CmdWord) (i : Instr), decode w = .ok i → encode i = w

/-- R71, R181: a presented request is answered with `IllegalCommand` and nothing else is done exactly when
its `OP` is 0x0, 0xD, 0xE or 0xF, or a field the operation does not use is not 0, or it is WGHT with
`TRI.n > 32`. The word is read through its fields, not through the decoder. -/
def Obligations.IllegalCommandExactlyWhenIllegal : Prop :=
  ∀ (s : State) (q : Request), Ready s q →
    (step s = .next { s with req := none, rsp := some ⟨4, none, none, none, none, none, none, none⟩ }
      ↔ illegalRequest q = true)

/-- A few words written out from the encodings of R66 and the table of spec/95 section 9.1. -/
def Obligations.ListedWordsDecode : Prop :=
  decode 0x1800 = .ok (.slyr .diff) ∧ decode 0x2000 = .ok .plyr ∧ decode 0x3000 = .ok .pinv
    ∧ decode 0x4400 = .ok (.frnd .real true) ∧ decode 0x5000 = .ok .rrev ∧ decode 0x6800 = .ok (.ksch .diff)
    ∧ decode 0x721F = .ok (.rndf .real false 16 31) ∧ decode 0x8C05 = .ok (.rndb .diff true 0 5)
    ∧ decode 0x9000 = .ok .encb ∧ decode 0xA000 = .ok .decb ∧ decode 0xB000 = .ok .wght
    ∧ decode 0xC18F = .ok (.rank 12 15)

/-- The notation of R73 and the pseudo-operations of R74, for every line: it stands for nothing exactly when
it writes a suffix or a range on an operation that does not use the field; else for the operation it names,
with the fields it writes, its word the one R73 computes. A missing range means 0,31; ENCRYPT and DECRYPT are
ENCB and DECB. That a line is a structure and not a text is the model's choice (assumption log 17). -/
def Obligations.AssemblerNotation : Prop :=
  (∀ l : AsmLine, assemble l = none ↔ writesUnusedField l = true)
    ∧ (∀ (l : AsmLine) (i : Instr), assemble l = some i →
        (encode i).toNat = writtenWord l ∧ decode (BitVec.ofNat 16 (writtenWord l)) = .ok i)
    ∧ (∀ l : AsmLine, (assembleWord l).map BitVec.toNat
        = if writesUnusedField l = true then none else some (writtenWord l))
    ∧ (∀ d t : Bool, assemble ⟨.rndf, d, t, none⟩ = assemble ⟨.rndf, d, t, some (0, 31)⟩
      ∧ assemble ⟨.rndb, d, t, none⟩ = assemble ⟨.rndb, d, t, some (0, 31)⟩)
    ∧ assemble ⟨.rank, false, false, none⟩ = assemble ⟨.rank, false, false, some (0, 31)⟩
    ∧ assemble ⟨.encrypt, false, false, none⟩ = some .encb
    ∧ assemble ⟨.decrypt, false, false, none⟩ = some .decb
    ∧ assembleWord ⟨.frnd, true, true, none⟩ = some 0x4C00
    ∧ assembleWord ⟨.rndf, false, true, some (0, 3)⟩ = some 0x7403
    ∧ assembleWord ⟨.rank, false, false, some (12, 15)⟩ = some 0xC18F
    ∧ assembleWord ⟨.encb, true, false, none⟩ = none
    ∧ assembleWord ⟨.slyr, false, true, none⟩ = none
    ∧ assembleWord ⟨.ksch, false, false, some (0, 31)⟩ = none

/-! ### The step, errors and purity -/

/-- When the word of the presented request decodes to `i`, the step is `i` on that state and nothing else
is around it (R55, R203). -/
def Obligations.StepRunsTheDecodedInstruction : Prop :=
  ∀ (s : State) (q : Request) (i : Instr), s.req = some q → decode q.cmd = .ok i → step s = exec i s

/-- With no request the block waits: the step changes nothing (R201; the model's choice of a step that
answers the same state, assumption log 2). -/
def Obligations.IdleBlockWaits : Prop :=
  ∀ s : State, s.req = none → step s = .next s

/-- The host can present a request exactly when none is pending, and presenting it changes nothing else
(R203, U5; assumption log 1). -/
def Obligations.PresentOnlyWhenIdle : Prop :=
  ∀ (s : State) (q : Request),
    (s.req = none → present q s = some { s with req := some q }) ∧ (s.req ≠ none → present q s = none)

/-- While `TFAULT = 1` every request, whatever its command word, is answered with `ERR = 3` and nothing
else, by the step and by every operation, and `TFAULT` stays 1 (R31, R180). -/
def Obligations.TableFaultAnswersEveryRequest : Prop :=
  ∀ (s : State) (q : Request), s.req = some q → s.tfault = true →
    step s = .next { s with req := none, rsp := some ⟨3, none, none, none, none, none, none, none⟩ }
      ∧ ∀ i : Instr, exec i s = .next { s with req := none, rsp := some ⟨3, none, none, none, none, none, none, none⟩ }

/-- R185: of the conditions that hold for a request exactly one is reported, the first in the order
TableIntegrity, IllegalCommand, InvalidRange, EmptyTrail; a request that meets none completes with 0. The
conditions are read from the fields of the word and from the trail operand. -/
def Obligations.ErrorPriority : Prop :=
  ∀ (s : State) (q : Request), s.req = some q →
    ∃ (t : State) (rsp : Response), step s = .next t ∧ t.rsp = some rsp ∧ rsp.err.toNat = expectedErr s q

/-- R184: an operation that completes has `ERR = 0` and carries the fields its rule writes and no others; an
operation that meets an error carries the code alone and changes nothing but that it has answered. -/
def Obligations.ResponseCarriesExactlyItsFields : Prop :=
  ∀ (i : Instr) (s : State) (q : Request), s.req = some q →
    ∃ (t : State) (rsp : Response), exec i s = .next t ∧ t.req = none ∧ t.rsp = some rsp
      ∧ (rsp.err = 0 →
          rsp.r.isSome = givesBlock i ∧ rsp.av.isSome = givesActivity i ∧ rsp.rko.isSome = givesSubkeys i
            ∧ rsp.tro.isSome = givesTraces i ∧ rsp.iso.isSome = givesTraces i ∧ rsp.wt.isSome = givesWeight i
            ∧ rsp.cndo.isSome = givesCandidates i)
      ∧ (rsp.err ≠ 0 →
          rsp = ⟨rsp.err, none, none, none, none, none, none, none⟩ ∧ t = { s with req := none, rsp := some rsp })

/-- R178: RNDF, RNDB and RANK with `MINR > MAXR` are answered with `InvalidRange` before anything is
computed, and nothing else changes; ENCB and DECB are never answered so. -/
def Obligations.InvalidRangeRejected : Prop :=
  ∀ (s : State) (q : Request), Ready s q →
    (∀ (m : Mode) (t : Bool) (lo hi : Round), hi < lo →
      exec (.rndf m t lo hi) s
          = .next { s with req := none, rsp := some ⟨1, none, none, none, none, none, none, none⟩ }
        ∧ exec (.rndb m t lo hi) s
          = .next { s with req := none, rsp := some ⟨1, none, none, none, none, none, none, none⟩ }
        ∧ exec (.rank lo hi) s
          = .next { s with req := none, rsp := some ⟨1, none, none, none, none, none, none, none⟩ })
    ∧ ((responseIn (exec .encb s)).map Response.err = some 0 ∧ (responseIn (exec .decb s)).map Response.err = some 0)

/-- Every request ends with a response whose code is 0..4, and the block is ready for the next (R176, R177,
R204). -/
def Obligations.EveryRequestIsAnswered : Prop :=
  ∀ (s : State) (q : Request), s.req = some q →
    ∃ (t : State) (rsp : Response), step s = .next t ∧ t.req = none ∧ t.rsp = some rsp ∧ rsp.err.toNat ≤ 4

/-- Purity: the response is a function of the request, of `TFAULT` and of the tables. Two states that agree
in these give the same response, whatever their working registers and their last response hold (R9, R32,
R57). -/
def Obligations.ResponseDependsOnRequestAndTablesOnly : Prop :=
  ∀ s s' : State, s.rom = s'.rom → s.tfault = s'.tfault → s.req = s'.req → s.req ≠ none →
    responseIn (step s) = responseIn (step s')

/-- The same request presented again after it was answered is answered the same, a success as an error
(R55, R176, R186). -/
def Obligations.RepeatedRequestSameResponse : Prop :=
  ∀ (s t : State) (q : Request), s.req = some q → step s = .next t →
    ∃ t', present q t = some t' ∧ responseIn (step t') = t.rsp ∧ t.rsp ≠ none

/-- No step changes a table or `TFAULT` (R13, R16, R31, R61). -/
def Obligations.TablesNeverChange : Prop :=
  ∀ s t : State, step s = .next t → t.rom = s.rom ∧ t.tfault = s.tfault

/-! ### Reset and the invariant -/

/-- After reset `TFAULT` is 0 exactly when each of the ten tables is a bijection (R200), and `PINV` is the
inverse of `P` (R16; in R200 the spec marks it as its inference); with the default tables `TFAULT = 0` and
`PINV = [2, 0, 3, 1, 6, 4, 7, 5]`, which rests on the contents the model takes for `S` and for `P` (assumption
log 7 and log 8, PRESUMED). -/
def Obligations.ResetChecksTheTables : Prop :=
  (∀ tb : Config.Tables,
    ((State.resetWith tb).tfault = false ↔ ∀ t : Fin 10, BijectiveTable tb.sbox[t])
      ∧ InversePermutations (State.resetWith tb).rom
      ∧ (State.resetWith tb).rom.sbox = tb.sbox ∧ (State.resetWith tb).rom.p = tb.p)
    ∧ State.reset.tfault = false ∧ State.reset.rom.pinv = #v[2, 0, 3, 1, 6, 4, 7, 5]

/-- The differential table after reset: 0 at 0 and 0xF at every other index, for every value of `Tables`
(R15, R35). -/
def Obligations.ResetDifferentialTable : Prop :=
  ∀ (tb : Config.Tables) (x : Nibble),
    (State.resetWith tb).rom.ds[x.toNat]'x.isLt = if x = 0 then 0 else 0xF

/-- The working registers, unspecified after reset (R35), are zero and empty in the model, the 77
candidate records among them, and no request and no response is there (the model's choice, assumption log
4). -/
def Obligations.ResetWorkingRegisters : Prop :=
  ∀ tb : Config.Tables,
    let s := State.resetWith tb
    s.x0 = 0 ∧ s.x1 = 0 ∧ s.k = 0 ∧ (∀ r : Round, s.rk[r] = 0)
      ∧ s.trk.n = 0 ∧ (∀ k : Fin 32, s.trk.v[k] = none) ∧ s.ist.n = 0 ∧ (∀ k : Fin 34, s.ist.v[k] = none)
      ∧ (∀ j : Fin 77, s.cnd[j].pos = 0 ∧ s.cnd[j].kd = 0 ∧ (∀ r : Round, s.cnd[j].drk[r] = 0)
          ∧ s.cnd[j].tr.n = 0 ∧ (∀ k : Fin 32, s.cnd[j].tr.v[k] = none) ∧ s.cnd[j].wt = 0)
      ∧ s.r = 0 ∧ s.j = 0 ∧ s.req = none ∧ s.rsp = none

/-- The invariant holds at reset, whatever the parameter `Tables` is. -/
def Obligations.ResetMeetsTheInvariant : Prop :=
  ∀ tb : Config.Tables, Inv (State.resetWith tb)

/-- Every step keeps the invariant: constant tables as reset leaves them, `TFAULT` the outcome of their
check, trackers and counters within their bounds, a legal response (R15, R16, R22 to R25, R28, R31). -/
def Obligations.StepKeepsTheInvariant : Prop :=
  ∀ s t : State, Inv s → step s = .next t → Inv t

/-! ### Utilities -/

/-- The elements of `ToArray` are the nibbles of the truncated value in the chosen order (R86), and `ArrToInt`
is its exact inverse both ways, which R87 marks as the spec's inference from R86 and R87. -/
def Obligations.NibbleArrays : Prop :=
  (∀ (v w : Nat) (i : Fin w),
    (toArray v w .lsnFirst)[i] = BitVec.ofNat 4 (v / 16 ^ i.val)
      ∧ (toArray v w .msnFirst)[i] = BitVec.ofNat 4 (v / 16 ^ (w - 1 - i.val)))
    ∧ (∀ (v w : Nat) (o : NibbleOrder), arrToInt (toArray v w o) o = v % 2 ^ (4 * w))
    ∧ (∀ (w : Nat) (a : Vector Nibble w) (o : NibbleOrder), toArray (arrToInt a o) w o = a)

/-- Bit `i` moves to bit `(i + a) mod w` under `RotL` (R88), back under `RotR` (R89), and each undoes the
other on the value truncated to the width, which R89 marks as the spec's inference from R88 and R89. -/
def Obligations.Rotations : Prop :=
  ∀ v a w : Nat, 0 < w →
    (∀ i, i < w → (rotL v a w).getLsbD ((i + a) % w) = v.testBit i)
      ∧ (∀ i, i < w → (rotR v a w).getLsbD i = v.testBit ((i + a) % w))
      ∧ rotR (rotL v a w).toNat a w = BitVec.ofNat w v
      ∧ rotL (rotR v a w).toNat a w = BitVec.ofNat w v

/-- What the spec says and infers of `Combine` in spec/40 section 4: XOR in real mode and OR in differential mode; commutative, with 0 the identity, in both; XOR
undoes itself, OR is idempotent and has no inverse. -/
def Obligations.CombineLaws : Prop :=
  (∀ a b : Word, combine a b .real = a ^^^ b ∧ combine a b .diff = a ||| b)
    ∧ (∀ (a b : Word) (m : Mode), combine a b m = combine b a m ∧ combine a 0 m = a)
    ∧ (∀ a b : Word, combine (combine a b .real) b .real = a)
    ∧ (∀ a b : Word, combine (combine a b .diff) b .diff = combine a b .diff)
    ∧ ¬ ∃ undo : Word → Word → Word, ∀ a b : Word, undo (combine a b .diff) b = a

/-- R138: `X0 = B[31:0]`, `X1 = B[63:32]`, `Join(X0, X1) = (X1 << 32) | X0`, and they undo each other. -/
def Obligations.SplitAndJoin : Prop :=
  (∀ b : Block, (low32 b).toNat = b.toNat % 2 ^ 32 ∧ (high32 b).toNat = b.toNat / 2 ^ 32
      ∧ join (low32 b) (high32 b) = b)
    ∧ (∀ x0 x1 : Word, (join x0 x1).toNat = x1.toNat * 2 ^ 32 + x0.toNat
      ∧ low32 (join x0 x1) = x0 ∧ high32 (join x0 x1) = x1)

/-- R102, R93: bit `i` of `Act(z)` is set exactly when nibble `i` of `z` is not 0, and `Pop8` counts the bits
set. -/
def Obligations.ActivityVector : Prop :=
  (∀ (z : Word) (i : Lane), (act z).getLsbD i = decide (nib z i ≠ 0))
    ∧ (∀ v : ActVec, pop8 v = setBits v)

/-! ### Round function -/

/-- SLYR: each nibble of the result is the table of its lane on that nibble of `A[31:0]`, `S[i]` in real
mode and `DS` in differential mode; `R[63:32] = 0`; nothing but the response changes (R100, R101, R107). -/
def Obligations.SlyrSubstitutesEachNibble : Prop :=
  ∀ (s : State) (q : Request) (m : Mode), Ready s q →
    ∃ R : Block,
      exec (.slyr m) s = .next { s with req := none, rsp := some ⟨0, some R, none, none, none, none, none, none⟩ }
        ∧ R.extractLsb' 32 32 = 0
        ∧ (m = .real → ∀ i : Lane, nib R i = s.rom.sbox[i.val][(nib q.a i).toNat]'(nib q.a i).isLt)
        ∧ (m = .diff → ∀ i : Lane, nib R i = s.rom.ds[(nib q.a i).toNat]'(nib q.a i).isLt)

/-- PLYR and PINV: output nibble `i` is input nibble `P[i]`, or `PINV[i]`; `R[63:32] = 0`; nothing but the
response changes (R103, R104, R108, R109). -/
def Obligations.PlyrAndPinvMoveNibbles : Prop :=
  ∀ (s : State) (q : Request), Ready s q →
    (∃ R : Block,
      exec .plyr s = .next { s with req := none, rsp := some ⟨0, some R, none, none, none, none, none, none⟩ }
        ∧ R.extractLsb' 32 32 = 0 ∧ ∀ i : Lane, nib R i = nib q.a s.rom.p[i])
    ∧ (∃ R : Block,
      exec .pinv s = .next { s with req := none, rsp := some ⟨0, some R, none, none, none, none, none, none⟩ }
        ∧ R.extractLsb' 32 32 = 0 ∧ ∀ i : Lane, nib R i = nib q.a s.rom.pinv[i])

/-- R104: output nibble `i` of the inverse layer is input nibble `PINV[i]`, and the two permutation layers undo
each other on every word, through the operations as through the functions, where `PINV` is the inverse of
`P`. -/
def Obligations.PermutationLayersAreInverse : Prop :=
  ∀ (s : State) (q : Request), Ready s q → InversePermutations s.rom →
    (∀ (u : Word) (i : Lane), nib (pInvLayer s.rom u) i = nib u s.rom.pinv[i])
      ∧ (∀ v : Word, pInvLayer s.rom (pLayer s.rom v) = v ∧ pLayer s.rom (pInvLayer s.rom v) = v)
      ∧ (∃ R, resultR (exec .plyr s) = some R
          ∧ resultR (exec .pinv (ask s { q with a := R })) = some (zext64 (low32 q.a)))
      ∧ (∃ R, resultR (exec .pinv s) = some R
          ∧ resultR (exec .plyr (ask s { q with a := R })) = some (zext64 (low32 q.a)))

/-- FRND: output nibble `i` is the substituted input nibble `P[i]`, and bit `i` of `AV`, there when `T = 1`
and absent when `T = 0`, says that the output of S-box `i` is not 0; nothing but the response changes (R102,
R105, R110). That `TRK` is among what does not change is the model's inference (assumption log 16, DEDUCED:
R51 lists FRND among the operations that reach the trail arrays). -/
def Obligations.FrndSubstitutesThenPermutes : Prop :=
  ∀ (s : State) (q : Request) (m : Mode) (t : Bool), Ready s q →
    ∃ (R : Block) (av : ActVec),
      exec (.frnd m t) s
          = .next { s with req := none,
                           rsp := some ⟨0, some R, if t then some av else none, none, none, none, none, none⟩ }
        ∧ R.extractLsb' 32 32 = 0
        ∧ (∀ i : Lane, nib R i = sub s.rom (laneTable s.rom.p[i]) (nib q.a s.rom.p[i]) m)
        ∧ (∀ i : Lane, av.getLsbD i = decide (sub s.rom (laneTable i) (nib q.a i) m ≠ 0))

/-- The properties the spec infers for `F` in spec/41 section 1: in real mode `F` is a bijection in its first component; in differential mode its nibbles are 0 or
0xF, it is 0 exactly at 0, its vector counts the nonzero input nibbles, it is monotone, and `F(0) = (0, 0)`. -/
def Obligations.RoundFunctionProperties : Prop :=
  ∀ rom : Rom, InversePermutations rom →
    ((∀ t : Fin 10, BijectiveTable rom.sbox[t]) → Function.Bijective fun x : Word => (roundF rom x .real).1)
    ∧ (SaturatingTable rom →
        (∀ (x : Word) (i : Lane), nib (roundF rom x .diff).1 i = 0 ∨ nib (roundF rom x .diff).1 i = 0xF)
        ∧ (∀ x : Word, (roundF rom x .diff).1 = 0 ↔ x = 0)
        ∧ (∀ x : Word, pop8 (roundF rom x .diff).2 = (List.range 8).countP fun i => decide (nib x i ≠ 0))
        ∧ (∀ x x' : Word, bitsBelow x x' →
            bitsBelow (roundF rom x .diff).1 (roundF rom x' .diff).1
              ∧ bitsBelow (roundF rom x .diff).2 (roundF rom x' .diff).2)
        ∧ roundF rom 0 .diff = (0, 0))

/-! ### Reverse round -/

/-- RREV: nibble `i` of the result is nibble `i` of the previous value OR-ed with nibble `PINV[i]` of the
current one, with no table, rotation or key; bit `i` of `AV` says that it is not 0; nothing but the response
changes (R120, R121, R122). -/
def Obligations.RrevExtendsBackward : Prop :=
  ∀ (s : State) (q : Request), Ready s q →
    ∃ (R : Block) (av : ActVec),
      exec .rrev s
          = .next { s with req := none, rsp := some ⟨0, some R, some av, none, none, none, none, none⟩ }
        ∧ R.extractLsb' 32 32 = 0
        ∧ (∀ i : Lane, nib R i = nib (high32 q.a) i ||| nib (low32 q.a) s.rom.pinv[i])
        ∧ (∀ i : Lane, av.getLsbD i = decide (nib R i ≠ 0))

/-! ### Key schedule -/

/-- KSCH: `RKO[r]` is `K[79:48]` of the key state at round `r`; round 0 is the key; each later state is the
one before rotated left by 29, with table 9 on the top nibble, table 8 on the next, and in real mode the
round index XORed in at bits 50..46. Outside `K`, `RK`, the counter and the response nothing changes (R127,
R128, R129, R131). -/
def Obligations.KschEmitsTheSubkeys : Prop :=
  ∀ (s : State) (q : Request) (m : Mode), Ready s q →
    ∃ (K : Nat → Key) (RK : Vector Word 32) (t : State),
      K 0 = q.key
        ∧ (∀ r, r < 31 →
            let rot := (K r).rotateLeft 29
            (K (r + 1)).extractLsb' 76 4 = sub s.rom 9 (rot.extractLsb' 76 4) m
              ∧ (K (r + 1)).extractLsb' 72 4 = sub s.rom 8 (rot.extractLsb' 72 4) m
              ∧ ∀ b, b < 72 → (K (r + 1)).getLsbD b
                  = (rot.getLsbD b ^^ (decide (m = .real) && decide (46 ≤ b) && decide (b ≤ 50)
                      && (r + 1).testBit (b - 46))))
        ∧ (∀ r : Round, RK[r] = (K r).extractLsb' 48 32)
        ∧ exec (.ksch m) s = .next t
        ∧ t.rsp = some ⟨0, none, none, some RK, none, none, none, none⟩
        ∧ t = { s with k := t.k, rk := t.rk, r := t.r, req := none, rsp := t.rsp }

/-- What the spec says and infers of differential mode in spec/43 section 1: the two substituted nibbles become 0 or 0xF, no counter enters, the zero key
gives 32 zeros, the number of set bits of the key state never falls, and the schedule is monotone. -/
def Obligations.DifferentialScheduleLaws : Prop :=
  ∀ rom : Rom, SaturatingTable rom →
    (∀ (k : Key) (r : Nat), ksUpdate rom k r .diff = ksUpdate rom k 0 .diff
        ∧ ∀ i, i = 18 ∨ i = 19 →
          nib (ksUpdate rom k r .diff) i = if nib (k.rotateLeft 29) i = 0 then 0 else 0xF)
      ∧ (∀ r : Round, (keySchedule rom 0 .diff)[r] = 0)
      ∧ (∀ (k : Key) (r : Nat), setBits (keyState rom k .diff r) ≤ setBits (keyState rom k .diff (r + 1)))
      ∧ (∀ (k k' : Key) (r : Round), bitsBelow k k' →
          bitsBelow (keySchedule rom k .diff)[r] (keySchedule rom k' .diff)[r])

/-! ### Feistel engine -/

/-- RNDF on a valid range runs the Feistel sequence `W`: `W[lo]`, `W[lo+1]` are the halves of `A` and each
round gives one more word; `R` is the last two words joined, and with `T = 1` the trail has one vector per
round in ascending order and the trace is the whole sequence. Tables, `K`, `CND` and `j` are untouched
(R138, R139, R142, R146). -/
def Obligations.RndfRunsTheFeistelSequence : Prop :=
  ∀ (s : State) (q : Request) (m : Mode) (t : Bool) (lo hi : Round), Ready s q → lo ≤ hi →
    ∃ (W : Nat → Word) (tr : List ActVec) (u : State),
      W lo = q.a.extractLsb' 0 32
        ∧ W (lo + 1) = q.a.extractLsb' 32 32
        ∧ (∀ r : Round, lo ≤ r → r ≤ hi →
            W (r + 2) = combine (roundF s.rom (combine (W (r + 1)) q.rki[r] m) m).1 ((W r).rotateLeft 8) m
              ∧ tr[r.val - lo.val]? = some (roundF s.rom (combine (W (r + 1)) q.rki[r] m) m).2)
        ∧ tr.length = hi.val - lo.val + 1
        ∧ exec (.rndf m t lo hi) s = .next u
        ∧ u.rsp = some ⟨0, some (W (hi + 2) ++ W (hi + 1)), none, none, if t then some (trailRecord tr) else none,
            if t then some (traceRecord ((List.range' lo (hi.val - lo.val + 3)).map W)) else none, none, none⟩
        ∧ u = { s with x0 := u.x0, x1 := u.x1, rk := u.rk, trk := u.trk, ist := u.ist, r := u.r,
                       req := none, rsp := u.rsp }

/-- RNDB on a valid range: from the halves of `A` as the state after round `hi`, each round `r` downward
gives the word `V[r]`; `R` is the last state joined, the trail is in ascending round order, and the trace is
the recorded sequence reversed word by word: final `X1`, final `X0`, then `X0` before each round in
ascending order (R140, R143, R147). -/
def Obligations.RndbRunsTheSequenceBackward : Prop :=
  ∀ (s : State) (q : Request) (m : Mode) (t : Bool) (lo hi : Round), Ready s q → lo ≤ hi →
    ∃ (V : Nat → Word) (tr : List ActVec) (u : State),
      V (hi + 1) = q.a.extractLsb' 0 32
        ∧ V (hi + 2) = q.a.extractLsb' 32 32
        ∧ (∀ r : Round, lo ≤ r → r ≤ hi →
            V r = (combine (roundF s.rom (combine (V (r + 1)) q.rki[r] m) m).1 (V (r + 2)) m).rotateRight 8
              ∧ tr[r.val - lo.val]? = some (roundF s.rom (combine (V (r + 1)) q.rki[r] m) m).2)
        ∧ tr.length = hi.val - lo.val + 1
        ∧ exec (.rndb m t lo hi) s = .next u
        ∧ u.rsp = some ⟨0, some (V (lo + 1) ++ V lo), none, none, if t then some (trailRecord tr) else none,
            if t then some (traceRecord (V (lo + 1) :: V lo :: (List.range' (lo + 1) (hi.val - lo.val + 1)).map V))
            else none, none, none⟩
        ∧ u = { s with x0 := u.x0, x1 := u.x1, rk := u.rk, trk := u.trk, ist := u.ist, r := u.r,
                       req := none, rsp := u.rsp }

/-- ENCB and DECB: each gives the `R` that KSCH and then RNDF, or RNDB, over 0..31 in real mode give when the
host carries `RKO` into `RKI`; the response has `R` alone, and `CND`, `j` and the tables are untouched, as are
`TRK` and `IST` (R148, R149, R74; for `TRK` and `IST` assumption log 5). -/
def Obligations.CipherIsScheduleThenRounds : Prop :=
  ∀ (s : State) (q : Request), Ready s q →
    ∃ (RK : Vector Word 32) (c p : Block) (u v : State),
      (responseIn (exec (.ksch .real) s)).bind Response.rko = some RK
        ∧ resultR (exec (.rndf .real false 0 31) (ask s { q with rki := RK })) = some c
        ∧ resultR (exec (.rndb .real false 0 31) (ask s { q with rki := RK })) = some p
        ∧ exec .encb s = .next u ∧ u.rsp = some ⟨0, some c, none, none, none, none, none, none⟩
        ∧ u = { s with x0 := u.x0, x1 := u.x1, k := u.k, rk := u.rk, r := u.r, req := none, rsp := u.rsp }
        ∧ exec .decb s = .next v ∧ v.rsp = some ⟨0, some p, none, none, none, none, none, none⟩
        ∧ v = { s with x0 := v.x0, x1 := v.x1, k := v.k, rk := v.rk, r := v.r, req := none, rsp := v.rsp }

/-- The inverse law the spec infers in spec/44 section 1: in real mode a backward run undoes the forward run over the same valid range with the same
subkeys, and the other way round; in differential mode it need not. -/
def Obligations.RunsUndoEachOtherInRealModeOnly : Prop :=
  (∀ (s : State) (q : Request) (t : Bool) (lo hi : Round), Ready s q → lo ≤ hi →
    (∃ R, resultR (exec (.rndf .real t lo hi) s) = some R
      ∧ resultR (exec (.rndb .real t lo hi) (ask s { q with a := R })) = some q.a)
    ∧ (∃ R, resultR (exec (.rndb .real t lo hi) s) = some R
      ∧ resultR (exec (.rndf .real t lo hi) (ask s { q with a := R })) = some q.a))
  ∧ ∃ (s : State) (q : Request) (lo hi : Round) (R R' : Block), Ready s q ∧ Inv s ∧ lo ≤ hi
      ∧ resultR (exec (.rndf .diff false lo hi) s) = some R
      ∧ resultR (exec (.rndb .diff false lo hi) (ask s { q with a := R })) = some R' ∧ R' ≠ q.a

/-- The composition law of spec/44 section 1, in the general form the spec infers: running `[lo, mid]` and then `[mid+1, hi]` gives the state and the trail of `[lo, hi]`, in both
modes; backward the same with the upper range run first. -/
def Obligations.RunsCompose : Prop :=
  ∀ (s : State) (q : Request) (m : Mode) (lo mid next hi : Round), Ready s q → lo ≤ mid → mid < hi →
    next.val = mid.val + 1 →
    (∃ (R1 R2 : Block) (T1 T2 : List ActVec),
      resultR (exec (.rndf m true lo mid) s) = some R1
        ∧ resultTrail (exec (.rndf m true lo mid) s) = some T1
        ∧ resultR (exec (.rndf m true next hi) (ask s { q with a := R1 })) = some R2
        ∧ resultTrail (exec (.rndf m true next hi) (ask s { q with a := R1 })) = some T2
        ∧ resultR (exec (.rndf m true lo hi) s) = some R2
        ∧ resultTrail (exec (.rndf m true lo hi) s) = some (T1 ++ T2))
    ∧ (∃ (R1 R2 : Block) (T1 T2 : List ActVec),
      resultR (exec (.rndb m true next hi) s) = some R1
        ∧ resultTrail (exec (.rndb m true next hi) s) = some T1
        ∧ resultR (exec (.rndb m true lo mid) (ask s { q with a := R1 })) = some R2
        ∧ resultTrail (exec (.rndb m true lo mid) (ask s { q with a := R1 })) = some T2
        ∧ resultR (exec (.rndb m true lo hi) s) = some R2
        ∧ resultTrail (exec (.rndb m true lo hi) s) = some (T2 ++ T1))

/-- R150: for all blocks and keys, decrypting the encryption of a block gives the block back. -/
def Obligations.DecryptUndoesEncrypt : Prop :=
  ∀ (s : State) (q : Request), Ready s q →
    ∃ c, resultR (exec .encb s) = some c ∧ resultR (exec .decb (ask s { q with a := c })) = some q.a

/-- The converse, which the spec infers in spec/44 section 2 from the inverse law: encrypting the decryption of
a block gives the block back. -/
def Obligations.EncryptUndoesDecrypt : Prop :=
  ∀ (s : State) (q : Request), Ready s q →
    ∃ p, resultR (exec .decb s) = some p ∧ resultR (exec .encb (ask s { q with a := p })) = some q.a

/-- The frozen known vectors of R148 with the default tables, which are taken from general knowledge
(assumption log 7, 8): a sanity statement. -/
def Obligations.KnownVectors : Prop :=
  resultR (exec .encb (ask State.reset { blankRequest 0x9000 with a := 0, key := 0 })) = some 0x08E75BCDC2181853
    ∧ resultR (exec .encb (ask State.reset
        { blankRequest 0x9000 with a := 0x0123456789ABCDEF, key := 0x0123456789ABCDEFFEDC }))
      = some 0xEBEE0C264B7179D8
    ∧ resultR (exec .decb (ask State.reset { blankRequest 0xA000 with a := 0, key := 0 })) = some 0x891E2CECF87269DF

/-- The primary result does not depend on the trace flag, and the traces are there exactly when it is 1
(R29, R105, R146). -/
def Obligations.TraceFlagOnlyAddsTheTraces : Prop :=
  ∀ (s : State) (q : Request) (m : Mode) (lo hi : Round), Ready s q → lo ≤ hi →
    ∃ (f g b : Response),
      responseIn (exec (.frnd m true) s) = some f ∧ f.av.isSome
        ∧ responseIn (exec (.frnd m false) s) = some { f with av := none }
        ∧ responseIn (exec (.rndf m true lo hi) s) = some g ∧ g.tro.isSome ∧ g.iso.isSome
        ∧ responseIn (exec (.rndf m false lo hi) s) = some { g with tro := none, iso := none }
        ∧ responseIn (exec (.rndb m true lo hi) s) = some b ∧ b.tro.isSome ∧ b.iso.isSome
        ∧ responseIn (exec (.rndb m false lo hi) s) = some { b with tro := none, iso := none }

/-- The weight of a forward trail does not fall as the range grows at its upper end (R34, R161). -/
def Obligations.WeightGrowsWithTheRange : Prop :=
  ∀ (s : State) (q : Request) (m : Mode) (lo hi next : Round), Ready s q → lo ≤ hi → next.val = hi.val + 1 →
    ∃ T T' : List ActVec,
      resultTrail (exec (.rndf m true lo hi) s) = some T ∧ resultTrail (exec (.rndf m true lo next) s) = some T'
        ∧ (T.map setBits).sum ≤ (T'.map setBits).sum

/-! ### Trails and the candidate search -/

/-- WGHT: for a count in 1..32 the weight is the number of 1 bits in the first `TRI.n` vectors, the others
ignored; a count of 0 is `EmptyTrail`, a count above 32 `IllegalCommand`; nothing but the response changes
(R161, R162, R163). -/
def Obligations.WghtCountsActiveSboxes : Prop :=
  ∀ (s : State) (q : Request), Ready s q →
    (q.tri.n.toNat = 0 →
      exec .wght s = .next { s with req := none, rsp := some ⟨2, none, none, none, none, none, none, none⟩ })
    ∧ (1 ≤ q.tri.n.toNat ∧ q.tri.n.toNat ≤ 32 →
      ∃ w : WeightBits,
        exec .wght s
            = .next { s with req := none, rsp := some ⟨0, none, none, none, none, none, some w, none⟩ }
          ∧ w.toNat = ((q.tri.v.toList.take q.tri.n.toNat).map setBits).sum
          ∧ w.toNat ≤ 8 * q.tri.n.toNat)
    ∧ (32 < q.tri.n.toNat →
      exec .wght s = .next { s with req := none, rsp := some ⟨4, none, none, none, none, none, none, none⟩ })

/-- R164: candidate `j` is `0xF << j`, bits `j+3..j` set and all others 0; no two candidates are equal, and
the zero difference is none of them. -/
def Obligations.CandidateDifferences : Prop :=
  (∀ (j : Fin 77) (b : Nat), b < 80 →
    (keyDifference j).getLsbD b = (decide (j.val ≤ b) && decide (b ≤ j.val + 3)))
    ∧ (∀ j j' : Fin 77, keyDifference j = keyDifference j' → j = j')
    ∧ ∀ j : Fin 77, keyDifference j ≠ 0

/-- RANK on a valid range returns all 77 candidates: every position once, each record with its key
difference, the schedule KSCH in differential mode gives it, the trail RNDF in differential mode gives that
schedule from the input difference, and its weight; ascending by weight, equal weights in ascending position
(R165, R166, R167). Tables are untouched, as is `IST` (assumption log 5). -/
def Obligations.RankSortsAllCandidates : Prop :=
  ∀ (s : State) (q : Request) (lo hi : Round), Ready s q → lo ≤ hi →
    ∃ (cn : Vector Candidate 77) (u : State),
      exec (.rank lo hi) s = .next u
        ∧ u.rsp = some ⟨0, none, none, none, none, none, none, some cn⟩
        ∧ u = { s with x0 := u.x0, x1 := u.x1, k := u.k, rk := u.rk, trk := u.trk, cnd := u.cnd, r := u.r,
                       j := u.j, req := none, rsp := u.rsp }
        ∧ (∀ j : Fin 77, ∃ k : Fin 77, cn[k].pos.toNat = j.val)
        ∧ (∀ k : Fin 77, cn[k].pos.toNat ≤ 76
            ∧ cn[k].kd = 0xF#80 <<< cn[k].pos.toNat
            ∧ (responseIn (exec (.ksch .diff) (ask s { q with key := cn[k].kd }))).bind Response.rko = some cn[k].drk
            ∧ (responseIn (exec (.rndf .diff true lo hi) (ask s { q with rki := cn[k].drk }))).bind Response.tro
                = some cn[k].tr
            ∧ cn[k].tr.n.toNat = hi.val - lo.val + 1
            ∧ cn[k].wt.toNat = ((trailEntries cn[k].tr).map setBits).sum)
        ∧ (∀ a b : Fin 77, a < b →
            cn[a].wt.toNat ≤ cn[b].wt.toNat
              ∧ (cn[a].wt = cn[b].wt → cn[a].pos.toNat < cn[b].pos.toNat))

/-- RANK of an input difference of all ones: every candidate has weight `8 * (MAXR - MINR + 1)` and the
result is in enumeration order 0..76 (R167). -/
def Obligations.RankOfAllOnes : Prop :=
  ∀ (s : State) (q : Request) (lo hi : Round), Ready s q → lo ≤ hi → q.a = BitVec.allOnes 64 →
    InversePermutations s.rom → SaturatingTable s.rom →
    ∃ cn : Vector Candidate 77,
      (responseIn (exec (.rank lo hi) s)).bind Response.cndo = some cn
        ∧ ∀ k : Fin 77, cn[k].pos.toNat = k.val ∧ cn[k].wt.toNat = 8 * (hi.val - lo.val + 1)

/-- The zero key difference gives all-zero subkeys in differential mode, and is not among the candidates
(R170); the zero subkeys and a zero input difference give the zero state and a trail of 32 zero vectors, whose
weight is 0, which R170 marks as the spec's inference from R106 (d) and R142. -/
def Obligations.ZeroDifferenceStaysZero : Prop :=
  (∀ (s : State) (q : Request), Ready s q → SaturatingTable s.rom → q.key = 0 → q.a = 0 →
    q.rki = Vector.replicate 32 0 → q.tri = ⟨32, Vector.replicate 32 0⟩ →
    (responseIn (exec (.ksch .diff) s)).bind Response.rko = some (Vector.replicate 32 0)
      ∧ resultR (exec (.rndf .diff true 0 31) s) = some 0
      ∧ resultTrail (exec (.rndf .diff true 0 31) s) = some (List.replicate 32 0)
      ∧ (responseIn (exec .wght s)).bind Response.wt = some 0)
    ∧ ∀ j : Fin 77, keyDifference j ≠ 0

/-! ### Working registers -/

/-- Which operations write which working registers: the halves, the counter and the subkeys, the key state,
the trail tracker, the trace, the candidate table (R19 to R25, R51; assumption log 5). An operation that is
not named for a register leaves it unchanged. -/
def Obligations.WorkingRegisterWriters : Prop :=
  ∀ (i : Instr) (s t : State), exec i s = .next t →
    (runsTheRounds i = false → t.x0 = s.x0 ∧ t.x1 = s.x1)
      ∧ (computesSchedule i = false → t.k = s.k)
      ∧ (runsTheRounds i = false → computesSchedule i = false → t.rk = s.rk ∧ t.r = s.r)
      ∧ (recordsTrail i = false → t.trk = s.trk)
      ∧ (recordsTrail i = false ∨ givesCandidates i = true → t.ist = s.ist)
      ∧ (givesCandidates i = false → t.cnd = s.cnd ∧ t.j = s.j)

/-- After an operation its working registers hold what its pseudocode last gave them: `RNDF` and `RNDB` record
the same trail and trace whether or not they are returned, `ENCB` and `DECB` leave the schedule `KSCH` gives
(R32; that the registers go on holding these values, and the last value of `r`, are the model's choice,
assumption log 5). -/
def Obligations.WorkingRegistersAreCopiedOut : Prop :=
  ∀ (s : State) (q : Request) (m : Mode) (t : Bool) (lo hi : Round), Ready s q → lo ≤ hi →
    ∃ a b c g d e : State,
      exec (.rndf m t lo hi) s = .next a ∧ a.rk = q.rki ∧ a.r.toNat = hi.val
        ∧ a.rsp = some ⟨0, some (join a.x0 a.x1), none, none, if t then some a.trk else none,
            if t then some a.ist else none, none, none⟩
        ∧ responseIn (exec (.rndf m true lo hi) s)
            = some ⟨0, some (join a.x0 a.x1), none, none, some a.trk, some a.ist, none, none⟩
        ∧ exec (.rndb m t lo hi) s = .next b ∧ b.rk = q.rki ∧ b.r.toNat = lo.val
        ∧ b.rsp = some ⟨0, some (join b.x0 b.x1), none, none, if t then some b.trk else none,
            if t then some b.ist else none, none, none⟩
        ∧ responseIn (exec (.rndb m true lo hi) s)
            = some ⟨0, some (join b.x0 b.x1), none, none, some b.trk, some b.ist, none, none⟩
        ∧ exec (.ksch m) s = .next c ∧ c.rsp = some ⟨0, none, none, some c.rk, none, none, none, none⟩
        ∧ c.rk[31] = c.k.extractLsb' 48 32 ∧ c.r = 31
        ∧ exec (.ksch .real) s = .next g
        ∧ exec .encb s = .next d ∧ d.rsp = some ⟨0, some (join d.x0 d.x1), none, none, none, none, none, none⟩
        ∧ d.k = g.k ∧ d.rk = g.rk ∧ d.r = 31
        ∧ exec .decb s = .next e ∧ e.rsp = some ⟨0, some (join e.x0 e.x1), none, none, none, none, none, none⟩
        ∧ e.k = g.k ∧ e.rk = g.rk ∧ e.r = 0

/-- After RANK the candidate table holds what was copied to the response, and the other working registers what
the evaluation of candidate 76 left: the schedule of its key difference, and the run of that schedule from the
input difference; `j` is 76. R25 gives no counter a value after an operation and R168 leaves the order of the
evaluations open: these are the model's choices (assumption log 5 and log 6). -/
def Obligations.WorkingRegistersAfterRank : Prop :=
  ∀ (s : State) (q : Request) (lo hi : Round), Ready s q → lo ≤ hi →
    ∃ f g h : State,
      exec (.rank lo hi) s = .next f ∧ f.rsp = some ⟨0, none, none, none, none, none, none, some f.cnd⟩
        ∧ exec (.ksch .diff) (ask s { q with key := 0xF#80 <<< 76 }) = .next g
        ∧ exec (.rndf .diff true lo hi) (ask s { q with rki := g.rk }) = .next h
        ∧ f.k = g.k ∧ f.rk = g.rk
        ∧ f.x0 = h.x0 ∧ f.x1 = h.x1 ∧ f.trk = h.trk ∧ f.r = h.r
        ∧ f.j.toNat = 76

/-- The counts of the recorded trails and traces, 6 bits wide (R7), are exact, and the arrays are filled below
the count and nowhere else: one vector per round of the range, one word per round and the final pair, in both
directions and both modes (R22, R142, R143; for the trace R23), and one vector per round in each record of RANK,
which R169 marks as the spec's inference from R164 to R166. It is said of the registers `TRK`, `IST` and `CND`
after the operation, with `T = 0` too. U7 leaves them any value there: that they hold what the operation
recorded is the model's inference (assumption log 5, DEDUCED), and that `TRK` after RANK is the trail of
candidate 76 is its choice (assumption log 6, DESIGN CHOICE). That an entry at the count and beyond is absent is
its choice too (assumption log 12). -/
def Obligations.RecordedCountsAreExact : Prop :=
  ∀ (s : State) (q : Request) (m : Mode) (t : Bool) (lo hi : Round), Ready s q → lo ≤ hi →
    ∃ a b f : State,
      exec (.rndf m t lo hi) s = .next a
        ∧ a.trk.n.toNat = hi.val - lo.val + 1 ∧ a.ist.n.toNat = hi.val - lo.val + 3
        ∧ a.trk.Bounded ∧ a.ist.Bounded
        ∧ exec (.rndb m t lo hi) s = .next b
        ∧ b.trk.n.toNat = hi.val - lo.val + 1 ∧ b.ist.n.toNat = hi.val - lo.val + 3
        ∧ b.trk.Bounded ∧ b.ist.Bounded
        ∧ exec (.rank lo hi) s = .next f
        ∧ f.trk.n.toNat = hi.val - lo.val + 1 ∧ f.trk.Bounded
        ∧ ∀ k : Fin 77, f.cnd[k].tr.n.toNat = hi.val - lo.val + 1 ∧ f.cnd[k].tr.Bounded
end

