-- ==== Sys2Proof/Laws/State.lean ====
section
/-!
SUPPORT. What each write of the state does to each field: one lemma per field per update, so that no proof
unfolds a record update.
-/

namespace Sys2Proof.Machine

/-! ### answer -/

@[simp] theorem answer_rom (s : State) (rsp : Response) : (answer s rsp).rom = s.rom := rfl
@[simp] theorem answer_tfault (s : State) (rsp : Response) : (answer s rsp).tfault = s.tfault := rfl
@[simp] theorem answer_x0 (s : State) (rsp : Response) : (answer s rsp).x0 = s.x0 := rfl
@[simp] theorem answer_x1 (s : State) (rsp : Response) : (answer s rsp).x1 = s.x1 := rfl
@[simp] theorem answer_k (s : State) (rsp : Response) : (answer s rsp).k = s.k := rfl
@[simp] theorem answer_rk (s : State) (rsp : Response) : (answer s rsp).rk = s.rk := rfl
@[simp] theorem answer_trk (s : State) (rsp : Response) : (answer s rsp).trk = s.trk := rfl
@[simp] theorem answer_ist (s : State) (rsp : Response) : (answer s rsp).ist = s.ist := rfl
@[simp] theorem answer_cnd (s : State) (rsp : Response) : (answer s rsp).cnd = s.cnd := rfl
@[simp] theorem answer_r (s : State) (rsp : Response) : (answer s rsp).r = s.r := rfl
@[simp] theorem answer_j (s : State) (rsp : Response) : (answer s rsp).j = s.j := rfl
@[simp] theorem answer_req (s : State) (rsp : Response) : (answer s rsp).req = none := rfl
@[simp] theorem answer_rsp (s : State) (rsp : Response) : (answer s rsp).rsp = some rsp := rfl

/-! ### raiseError -/

@[simp] theorem raiseError_rom (s : State) (e : ErrCode) : (raiseError s e).rom = s.rom := rfl
@[simp] theorem raiseError_tfault (s : State) (e : ErrCode) : (raiseError s e).tfault = s.tfault := rfl
@[simp] theorem raiseError_x0 (s : State) (e : ErrCode) : (raiseError s e).x0 = s.x0 := rfl
@[simp] theorem raiseError_x1 (s : State) (e : ErrCode) : (raiseError s e).x1 = s.x1 := rfl
@[simp] theorem raiseError_k (s : State) (e : ErrCode) : (raiseError s e).k = s.k := rfl
@[simp] theorem raiseError_rk (s : State) (e : ErrCode) : (raiseError s e).rk = s.rk := rfl
@[simp] theorem raiseError_trk (s : State) (e : ErrCode) : (raiseError s e).trk = s.trk := rfl
@[simp] theorem raiseError_ist (s : State) (e : ErrCode) : (raiseError s e).ist = s.ist := rfl
@[simp] theorem raiseError_cnd (s : State) (e : ErrCode) : (raiseError s e).cnd = s.cnd := rfl
@[simp] theorem raiseError_r (s : State) (e : ErrCode) : (raiseError s e).r = s.r := rfl
@[simp] theorem raiseError_j (s : State) (e : ErrCode) : (raiseError s e).j = s.j := rfl
@[simp] theorem raiseError_req (s : State) (e : ErrCode) : (raiseError s e).req = none := rfl
@[simp] theorem raiseError_rsp (s : State) (e : ErrCode) : (raiseError s e).rsp = some (responseOf e) := rfl

/-! ### holdSchedule -/

@[simp] theorem holdSchedule_rom (s : State) (k : Key) (rk : Vector Word 32) : (holdSchedule s k rk).rom = s.rom := rfl
@[simp] theorem holdSchedule_tfault (s : State) (k : Key) (rk : Vector Word 32) : (holdSchedule s k rk).tfault = s.tfault := rfl
@[simp] theorem holdSchedule_x0 (s : State) (k : Key) (rk : Vector Word 32) : (holdSchedule s k rk).x0 = s.x0 := rfl
@[simp] theorem holdSchedule_x1 (s : State) (k : Key) (rk : Vector Word 32) : (holdSchedule s k rk).x1 = s.x1 := rfl
@[simp] theorem holdSchedule_k (s : State) (k : Key) (rk : Vector Word 32) : (holdSchedule s k rk).k = k := rfl
@[simp] theorem holdSchedule_rk (s : State) (k : Key) (rk : Vector Word 32) : (holdSchedule s k rk).rk = rk := rfl
@[simp] theorem holdSchedule_trk (s : State) (k : Key) (rk : Vector Word 32) : (holdSchedule s k rk).trk = s.trk := rfl
@[simp] theorem holdSchedule_ist (s : State) (k : Key) (rk : Vector Word 32) : (holdSchedule s k rk).ist = s.ist := rfl
@[simp] theorem holdSchedule_cnd (s : State) (k : Key) (rk : Vector Word 32) : (holdSchedule s k rk).cnd = s.cnd := rfl
@[simp] theorem holdSchedule_r (s : State) (k : Key) (rk : Vector Word 32) : (holdSchedule s k rk).r = 31 := rfl
@[simp] theorem holdSchedule_j (s : State) (k : Key) (rk : Vector Word 32) : (holdSchedule s k rk).j = s.j := rfl
@[simp] theorem holdSchedule_req (s : State) (k : Key) (rk : Vector Word 32) : (holdSchedule s k rk).req = s.req := rfl
@[simp] theorem holdSchedule_rsp (s : State) (k : Key) (rk : Vector Word 32) : (holdSchedule s k rk).rsp = s.rsp := rfl

/-! ### holdSubkeys -/

@[simp] theorem holdSubkeys_rom (s : State) (rk : Vector Word 32) : (holdSubkeys s rk).rom = s.rom := rfl
@[simp] theorem holdSubkeys_tfault (s : State) (rk : Vector Word 32) : (holdSubkeys s rk).tfault = s.tfault := rfl
@[simp] theorem holdSubkeys_x0 (s : State) (rk : Vector Word 32) : (holdSubkeys s rk).x0 = s.x0 := rfl
@[simp] theorem holdSubkeys_x1 (s : State) (rk : Vector Word 32) : (holdSubkeys s rk).x1 = s.x1 := rfl
@[simp] theorem holdSubkeys_k (s : State) (rk : Vector Word 32) : (holdSubkeys s rk).k = s.k := rfl
@[simp] theorem holdSubkeys_rk (s : State) (rk : Vector Word 32) : (holdSubkeys s rk).rk = rk := rfl
@[simp] theorem holdSubkeys_trk (s : State) (rk : Vector Word 32) : (holdSubkeys s rk).trk = s.trk := rfl
@[simp] theorem holdSubkeys_ist (s : State) (rk : Vector Word 32) : (holdSubkeys s rk).ist = s.ist := rfl
@[simp] theorem holdSubkeys_cnd (s : State) (rk : Vector Word 32) : (holdSubkeys s rk).cnd = s.cnd := rfl
@[simp] theorem holdSubkeys_r (s : State) (rk : Vector Word 32) : (holdSubkeys s rk).r = s.r := rfl
@[simp] theorem holdSubkeys_j (s : State) (rk : Vector Word 32) : (holdSubkeys s rk).j = s.j := rfl
@[simp] theorem holdSubkeys_req (s : State) (rk : Vector Word 32) : (holdSubkeys s rk).req = s.req := rfl
@[simp] theorem holdSubkeys_rsp (s : State) (rk : Vector Word 32) : (holdSubkeys s rk).rsp = s.rsp := rfl

/-! ### holdRun -/

@[simp] theorem holdRun_rom (s : State) (x0 x1 : Word) (last : Round) : (holdRun s x0 x1 last).rom = s.rom := rfl
@[simp] theorem holdRun_tfault (s : State) (x0 x1 : Word) (last : Round) : (holdRun s x0 x1 last).tfault = s.tfault := rfl
@[simp] theorem holdRun_x0 (s : State) (x0 x1 : Word) (last : Round) : (holdRun s x0 x1 last).x0 = x0 := rfl
@[simp] theorem holdRun_x1 (s : State) (x0 x1 : Word) (last : Round) : (holdRun s x0 x1 last).x1 = x1 := rfl
@[simp] theorem holdRun_k (s : State) (x0 x1 : Word) (last : Round) : (holdRun s x0 x1 last).k = s.k := rfl
@[simp] theorem holdRun_rk (s : State) (x0 x1 : Word) (last : Round) : (holdRun s x0 x1 last).rk = s.rk := rfl
@[simp] theorem holdRun_trk (s : State) (x0 x1 : Word) (last : Round) : (holdRun s x0 x1 last).trk = s.trk := rfl
@[simp] theorem holdRun_ist (s : State) (x0 x1 : Word) (last : Round) : (holdRun s x0 x1 last).ist = s.ist := rfl
@[simp] theorem holdRun_cnd (s : State) (x0 x1 : Word) (last : Round) : (holdRun s x0 x1 last).cnd = s.cnd := rfl
@[simp] theorem holdRun_r (s : State) (x0 x1 : Word) (last : Round) : (holdRun s x0 x1 last).r = BitVec.ofFin last := rfl
@[simp] theorem holdRun_j (s : State) (x0 x1 : Word) (last : Round) : (holdRun s x0 x1 last).j = s.j := rfl
@[simp] theorem holdRun_req (s : State) (x0 x1 : Word) (last : Round) : (holdRun s x0 x1 last).req = s.req := rfl
@[simp] theorem holdRun_rsp (s : State) (x0 x1 : Word) (last : Round) : (holdRun s x0 x1 last).rsp = s.rsp := rfl

/-! ### holdTrail -/

@[simp] theorem holdTrail_rom (s : State) (trk : Trail) : (holdTrail s trk).rom = s.rom := rfl
@[simp] theorem holdTrail_tfault (s : State) (trk : Trail) : (holdTrail s trk).tfault = s.tfault := rfl
@[simp] theorem holdTrail_x0 (s : State) (trk : Trail) : (holdTrail s trk).x0 = s.x0 := rfl
@[simp] theorem holdTrail_x1 (s : State) (trk : Trail) : (holdTrail s trk).x1 = s.x1 := rfl
@[simp] theorem holdTrail_k (s : State) (trk : Trail) : (holdTrail s trk).k = s.k := rfl
@[simp] theorem holdTrail_rk (s : State) (trk : Trail) : (holdTrail s trk).rk = s.rk := rfl
@[simp] theorem holdTrail_trk (s : State) (trk : Trail) : (holdTrail s trk).trk = trk := rfl
@[simp] theorem holdTrail_ist (s : State) (trk : Trail) : (holdTrail s trk).ist = s.ist := rfl
@[simp] theorem holdTrail_cnd (s : State) (trk : Trail) : (holdTrail s trk).cnd = s.cnd := rfl
@[simp] theorem holdTrail_r (s : State) (trk : Trail) : (holdTrail s trk).r = s.r := rfl
@[simp] theorem holdTrail_j (s : State) (trk : Trail) : (holdTrail s trk).j = s.j := rfl
@[simp] theorem holdTrail_req (s : State) (trk : Trail) : (holdTrail s trk).req = s.req := rfl
@[simp] theorem holdTrail_rsp (s : State) (trk : Trail) : (holdTrail s trk).rsp = s.rsp := rfl

/-! ### holdTrace -/

@[simp] theorem holdTrace_rom (s : State) (ist : Trace) : (holdTrace s ist).rom = s.rom := rfl
@[simp] theorem holdTrace_tfault (s : State) (ist : Trace) : (holdTrace s ist).tfault = s.tfault := rfl
@[simp] theorem holdTrace_x0 (s : State) (ist : Trace) : (holdTrace s ist).x0 = s.x0 := rfl
@[simp] theorem holdTrace_x1 (s : State) (ist : Trace) : (holdTrace s ist).x1 = s.x1 := rfl
@[simp] theorem holdTrace_k (s : State) (ist : Trace) : (holdTrace s ist).k = s.k := rfl
@[simp] theorem holdTrace_rk (s : State) (ist : Trace) : (holdTrace s ist).rk = s.rk := rfl
@[simp] theorem holdTrace_trk (s : State) (ist : Trace) : (holdTrace s ist).trk = s.trk := rfl
@[simp] theorem holdTrace_ist (s : State) (ist : Trace) : (holdTrace s ist).ist = ist := rfl
@[simp] theorem holdTrace_cnd (s : State) (ist : Trace) : (holdTrace s ist).cnd = s.cnd := rfl
@[simp] theorem holdTrace_r (s : State) (ist : Trace) : (holdTrace s ist).r = s.r := rfl
@[simp] theorem holdTrace_j (s : State) (ist : Trace) : (holdTrace s ist).j = s.j := rfl
@[simp] theorem holdTrace_req (s : State) (ist : Trace) : (holdTrace s ist).req = s.req := rfl
@[simp] theorem holdTrace_rsp (s : State) (ist : Trace) : (holdTrace s ist).rsp = s.rsp := rfl

/-! ### holdCandidates -/

@[simp] theorem holdCandidates_rom (s : State) (cnd : Vector Candidate 77) : (holdCandidates s cnd).rom = s.rom := rfl
@[simp] theorem holdCandidates_tfault (s : State) (cnd : Vector Candidate 77) : (holdCandidates s cnd).tfault = s.tfault := rfl
@[simp] theorem holdCandidates_x0 (s : State) (cnd : Vector Candidate 77) : (holdCandidates s cnd).x0 = s.x0 := rfl
@[simp] theorem holdCandidates_x1 (s : State) (cnd : Vector Candidate 77) : (holdCandidates s cnd).x1 = s.x1 := rfl
@[simp] theorem holdCandidates_k (s : State) (cnd : Vector Candidate 77) : (holdCandidates s cnd).k = s.k := rfl
@[simp] theorem holdCandidates_rk (s : State) (cnd : Vector Candidate 77) : (holdCandidates s cnd).rk = s.rk := rfl
@[simp] theorem holdCandidates_trk (s : State) (cnd : Vector Candidate 77) : (holdCandidates s cnd).trk = s.trk := rfl
@[simp] theorem holdCandidates_ist (s : State) (cnd : Vector Candidate 77) : (holdCandidates s cnd).ist = s.ist := rfl
@[simp] theorem holdCandidates_cnd (s : State) (cnd : Vector Candidate 77) : (holdCandidates s cnd).cnd = cnd := rfl
@[simp] theorem holdCandidates_r (s : State) (cnd : Vector Candidate 77) : (holdCandidates s cnd).r = s.r := rfl
@[simp] theorem holdCandidates_j (s : State) (cnd : Vector Candidate 77) : (holdCandidates s cnd).j = 76 := rfl
@[simp] theorem holdCandidates_req (s : State) (cnd : Vector Candidate 77) : (holdCandidates s cnd).req = s.req := rfl
@[simp] theorem holdCandidates_rsp (s : State) (cnd : Vector Candidate 77) : (holdCandidates s cnd).rsp = s.rsp := rfl

/-! ### ask -/

@[simp] theorem ask_rom (s : State) (q : Request) : (ask s q).rom = s.rom := rfl
@[simp] theorem ask_tfault (s : State) (q : Request) : (ask s q).tfault = s.tfault := rfl
@[simp] theorem ask_x0 (s : State) (q : Request) : (ask s q).x0 = s.x0 := rfl
@[simp] theorem ask_x1 (s : State) (q : Request) : (ask s q).x1 = s.x1 := rfl
@[simp] theorem ask_k (s : State) (q : Request) : (ask s q).k = s.k := rfl
@[simp] theorem ask_rk (s : State) (q : Request) : (ask s q).rk = s.rk := rfl
@[simp] theorem ask_trk (s : State) (q : Request) : (ask s q).trk = s.trk := rfl
@[simp] theorem ask_ist (s : State) (q : Request) : (ask s q).ist = s.ist := rfl
@[simp] theorem ask_cnd (s : State) (q : Request) : (ask s q).cnd = s.cnd := rfl
@[simp] theorem ask_r (s : State) (q : Request) : (ask s q).r = s.r := rfl
@[simp] theorem ask_j (s : State) (q : Request) : (ask s q).j = s.j := rfl
@[simp] theorem ask_req (s : State) (q : Request) : (ask s q).req = some q := rfl
@[simp] theorem ask_rsp (s : State) (q : Request) : (ask s q).rsp = s.rsp := rfl

end Sys2Proof.Machine
end

