-- ==== Sys2Proof/Laws/Ops.lean ====
section
/-!
SUPPORT. What the shared operations on the state can do, said once: `serve`, which every meaning runs in,
`withRange`, the presenting of a request, and the step.
-/

namespace Sys2Proof.Machine

/-! ### Responses -/

/-- A response with a code alone, written out. -/
theorem responseOf_eq (e : ErrCode) : responseOf e = ⟨errBits e, none, none, none, none, none, none, none⟩ := rfl

/-- The response of a completed operation before its fields are written, written out. -/
theorem done_eq : done = ⟨0, none, none, none, none, none, none, none⟩ := rfl

/-- An error response written out as the state it leaves. -/
theorem raiseError_eq (s : State) (e : ErrCode) :
    raiseError s e = { s with req := none, rsp := some ⟨errBits e, none, none, none, none, none, none, none⟩ } := rfl

/-- An answer written out as the state it leaves. -/
theorem answer_eq (s : State) (rsp : Response) : answer s rsp = { s with req := none, rsp := some rsp } := rfl

/-- Every code is at most 4 (R177). -/
theorem errBits_le (e : ErrCode) : (errBits e).toNat ≤ 4 := by cases e <;> decide

/-- Only completion has the code 0 (R177). -/
theorem errBits_eq_zero_iff (e : ErrCode) : errBits e = 0 ↔ e = .ok := by cases e <;> decide

/-! ### `serve` -/

/-- With a request and good tables, the work decides. -/
theorem serve_ready {s : State} {q : Request} (h : Ready s q) (work : Request → Except ErrCode State) :
    serve s work = match work q with
      | .ok s' => .next s'
      | .error e => .next (raiseError s e) := by
  cases hw : work q <;> simp [serve, h.1, h.2, hw]

/-- The work completes. -/
theorem serve_ok {s s' : State} {q : Request} {work : Request → Except ErrCode State} (h : Ready s q)
    (hw : work q = .ok s') : serve s work = .next s' := by
  simp [serve, h.1, h.2, hw]

/-- The work ends in an error. -/
theorem serve_error {s : State} {q : Request} {e : ErrCode} {work : Request → Except ErrCode State} (h : Ready s q)
    (hw : work q = .error e) : serve s work = .next (raiseError s e) := by
  simp [serve, h.1, h.2, hw]

/-- While `TFAULT = 1` no work is done (R180). -/
theorem serve_tfault {s : State} {q : Request} (h : s.req = some q) (ht : s.tfault = true)
    (work : Request → Except ErrCode State) : serve s work = .next (raiseError s .tableIntegrity) := by
  simp [serve, h, ht]

/-- With no request the operation has no operands. -/
theorem serve_idle {s : State} (h : s.req = none) (work : Request → Except ErrCode State) :
    serve s work = .fault .noRequest := by
  simp [serve, h]

/-- Everything `serve` can answer as a next state: an error that leaves all else alone, or the work's own
state. -/
theorem serve_next_cases {s t : State} {work : Request → Except ErrCode State} (h : serve s work = .next t) :
    ∃ q, s.req = some q ∧
      ((∃ e, t = raiseError s e ∧ (s.tfault = true ∧ e = .tableIntegrity ∨ s.tfault = false ∧ work q = .error e))
        ∨ (s.tfault = false ∧ work q = .ok t)) := by
  unfold serve at h
  split at h
  · cases h
  · rename_i q hq
    refine ⟨q, hq, ?_⟩
    split at h
    · rename_i ht
      cases h
      exact .inl ⟨_, rfl, .inl ⟨ht, rfl⟩⟩
    · rename_i ht
      have ht' : s.tfault = false := by simpa using ht
      split at h
      · rename_i s' hs
        cases h
        exact .inr ⟨ht', hs⟩
      · rename_i e he
        cases h
        exact .inl ⟨e, rfl, .inr ⟨ht', he⟩⟩

/-- A presented request is always served with a next state: `serve` never stops the machine then. -/
theorem serve_answers {s : State} {q : Request} (h : s.req = some q) (work : Request → Except ErrCode State) :
    ∃ t, serve s work = .next t := by
  simp only [serve, h]
  split
  · exact ⟨_, rfl⟩
  · split <;> exact ⟨_, rfl⟩

/-! ### `withRange` -/

/-- A valid range lets the work through (R141). -/
@[simp] theorem withRange_valid {α : Type} {lo hi : Round} (h : lo ≤ hi) (work : α) :
    withRange lo hi work = .ok work := by
  simp [withRange, not_lt.mpr h]

/-- An invalid range is the error, whatever the work (R178). -/
@[simp] theorem withRange_invalid {α : Type} {lo hi : Round} (h : hi < lo) (work : α) :
    withRange lo hi work = .error .invalidRange := by
  simp [withRange, h]

/-! ### Requests and the step -/

/-- The request asked is the one presented, and the tables are as before. -/
theorem ready_ask {s : State} {q : Request} (h : Ready s q) (q' : Request) : Ready (ask s q') q' := ⟨rfl, h.2⟩

/-- The step on a presented request, by what its word decodes to. -/
theorem step_of_request {s : State} {q : Request} (h : s.req = some q) :
    step s = match decode q.cmd with
      | .ok i => exec i s
      | .error _ => serveIllegal s := by
  cases hd : decode q.cmd <;> simp [step, fetchCommand, h, hd]

/-- The step with no request. -/
theorem step_of_idle {s : State} (h : s.req = none) : step s = .next s := by
  simp [step, fetchCommand, h, waitForRequest]

/-- Everything a step can do: wait, run the decoded operation, or answer an illegal word. -/
theorem step_cases (s : State) :
    (s.req = none ∧ step s = .next s)
      ∨ (∃ q i, s.req = some q ∧ decode q.cmd = .ok i ∧ step s = exec i s)
      ∨ (∃ q e, s.req = some q ∧ decode q.cmd = .error e ∧ step s = serveIllegal s) := by
  cases h : s.req with
  | none => exact .inl ⟨rfl, step_of_idle h⟩
  | some q =>
    refine .inr ?_
    cases hd : decode q.cmd with
    | ok i => exact .inl ⟨q, i, rfl, hd, by simp [step_of_request h, hd]⟩
    | error e => exact .inr ⟨q, e, rfl, hd, by simp [step_of_request h, hd]⟩

end Sys2Proof.Machine
end

