-- ==== Sys2Proof/Laws/Utilities.lean ====
section
/-!
SUPPORT. What the fixed-width utilities do, bit by bit and nibble by nibble (spec/40_utilities.md rules R85
to R93): the datapath's proofs cite these and never unfold an array.
-/

namespace Sys2Proof.Machine

/-- Bit `b` of the natural of a nibble list is bit `b % 4` of its nibble `b / 4` (R87). -/
theorem nibblesToNat_testBit (l : List Nibble) (b : Nat) :
    (nibblesToNat l).testBit b = (l.getD (b / 4) 0).getLsbD (b % 4) := by
  induction l generalizing b with
  | nil => simp [nibblesToNat]
  | cons n rest ih =>
    have h16 : n.toNat < 2 ^ 4 := n.isLt
    have : nibblesToNat (n :: rest) = 2 ^ 4 * nibblesToNat rest + n.toNat := by simp [nibblesToNat]; omega
    rw [this, Nat.testBit_two_pow_mul_add _ h16]
    by_cases hb : b < 4
    · have h0 : b / 4 = 0 := by omega
      have h1 : b % 4 = b := by omega
      simp [hb, h0, h1, BitVec.getLsbD]
    · have h0 : b / 4 = (b - 4) / 4 + 1 := by omega
      have h1 : (b - 4) % 4 = b % 4 := by omega
      simp [hb, h0, ih, h1]

/-- Bit `b` of nibble `i` is bit `4i + b`. -/
theorem nib_getLsbD {w : Nat} (x : BitVec w) (i b : Nat) (hb : b < 4) : (nib x i).getLsbD b = x.getLsbD (4 * i + b) := by
  simp [nib, hb]

/-- Element `i` of `lanes` is nibble `i` (R52, R86). -/
@[simp] theorem lanes_getElem (x : Word) (i : Nat) (h : i < 8) : (lanes x)[i] = nib x i := by
  apply BitVec.eq_of_getLsbD_eq
  intro b hb
  have h1 : 4 * i + b < 32 := by omega
  rw [nib_getLsbD _ _ _ hb]
  simp only [lanes, toArray, Vector.getElem_ofFn, nibbleAt, mask, BitVec.getLsbD_ofNat, Nat.testBit_shiftRight,
    Nat.testBit_and, Nat.testBit_two_pow_sub_one, hb, decide_true, Bool.true_and]
  simp [h1, BitVec.testBit_toNat]

/-- Nibble `i` of `ofLanes` is element `i` (R87). -/
@[simp] theorem nib_ofLanes (a : Vector Nibble 8) (i : Nat) (h : i < 8) : nib (ofLanes a) i = a[i] := by
  apply BitVec.eq_of_getLsbD_eq
  intro b hb
  rw [nib_getLsbD _ _ _ hb]
  have h1 : (4 * i + b) / 4 = i := by omega
  have h2 : (4 * i + b) % 4 = b := by omega
  have h3 : 4 * i + b < 32 := by omega
  rw [ofLanes, arrToInt, BitVec.getLsbD_ofNat, nibblesToNat_testBit, h1, h2]
  simp [h3, h]

/-- Words with the same nibbles are equal. -/
theorem word_ext_nib {x y : Word} (h : ∀ i : Lane, nib x i = nib y i) : x = y := by
  apply BitVec.eq_of_getLsbD_eq
  intro b hb
  have := congrArg (fun n => n.getLsbD (b % 4)) (h ⟨b / 4, by omega⟩)
  simp only [nib_getLsbD _ _ _ (Nat.mod_lt b (by decide : 4 > 0))] at this
  rwa [Nat.div_add_mod] at this

/-- Bit `b` of a list of flags is its flag `b`. -/
theorem flagsToNat_testBit (l : List Nat) (hl : ∀ f ∈ l, f ≤ 1) (b : Nat) :
    (flagsToNat l).testBit b = decide (l.getD b 0 = 1) := by
  induction l generalizing b with
  | nil => simp [flagsToNat]
  | cons f rest ih =>
    have hf : f ≤ 1 := hl f (by simp)
    have : flagsToNat (f :: rest) = 2 ^ 1 * flagsToNat rest + f := by simp [flagsToNat]; omega
    rw [this, Nat.testBit_two_pow_mul_add _ (by omega)]
    cases b with
    | zero => interval_cases f <;> simp
    | succ b => simp [ih (fun g hg => hl g (by simp [hg]))]

/-- A flag is 0 or 1 (R93). -/
theorem nz_le (x : Nibble) : nz x ≤ 1 := by unfold nz; split <;> omega

/-- Bit `i` of the activity of eight nibbles says that nibble `i` is not 0 (R102). -/
@[simp] theorem activity_getLsbD (a : Vector Nibble 8) (i : Nat) (h : i < 8) :
    (activity a).getLsbD i = decide (a[i] ≠ 0) := by
  have : ∀ f ∈ a.toList.map nz, f ≤ 1 := by
    intro f hf
    obtain ⟨x, -, rfl⟩ := List.mem_map.mp hf
    exact nz_le x
  simp only [activity, BitVec.getLsbD_ofNat, h, decide_true, Bool.true_and, flagsToNat_testBit _ this]
  simp [h, nz]

/-- The bit that `RotL` brings to position `i` (R88). -/
theorem rotL_getLsbD {w : Nat} (v a i : Nat) (hi : i < w) :
    (rotL v a w).getLsbD i = v.testBit ((i + (w - a % w)) % w) := by
  have hw : 0 < w := by omega
  have ha : a % w < w := Nat.mod_lt _ hw
  unfold rotL
  by_cases h0 : a % w = 0
  · simp only [h0, if_true, BitVec.getLsbD_ofNat, Nat.testBit_and, mask, Nat.testBit_two_pow_sub_one]
    simp [hi, Nat.mod_eq_of_lt hi]
  · simp only [h0, if_false, BitVec.getLsbD_ofNat, hi, decide_true, Bool.true_and, Nat.testBit_or,
      Nat.testBit_shiftLeft, Nat.testBit_shiftRight, Nat.testBit_and, mask, Nat.testBit_two_pow_sub_one]
    by_cases hia : a % w ≤ i
    · have h1 : (i + (w - a % w)) % w = i - a % w := by
        rw [show i + (w - a % w) = (i - a % w) + w by omega, Nat.add_mod_right, Nat.mod_eq_of_lt (by omega)]
      have h2 : ¬ w - a % w + i < w := by omega
      have h3 : i - a % w < w := by omega
      simp [h1, h2, h3, hia]
    · have h1 : (i + (w - a % w)) % w = w - a % w + i := by
        rw [Nat.mod_eq_of_lt (by omega)]; omega
      have h2 : w - a % w + i < w := by omega
      simp [h1, h2, hia]

/-- The bit that `RotR` brings to position `i` (R89). -/
theorem rotR_getLsbD {w : Nat} (v a i : Nat) (hi : i < w) :
    (rotR v a w).getLsbD i = v.testBit ((i + a % w) % w) := by
  have hw : 0 < w := by omega
  have ha : a % w < w := Nat.mod_lt _ hw
  unfold rotR
  by_cases h0 : a % w = 0
  · simp only [h0, if_true, BitVec.getLsbD_ofNat, Nat.testBit_and, mask, Nat.testBit_two_pow_sub_one]
    simp [hi, Nat.mod_eq_of_lt hi]
  · simp only [h0, if_false, BitVec.getLsbD_ofNat, hi, decide_true, Bool.true_and, Nat.testBit_or,
      Nat.testBit_shiftLeft, Nat.testBit_shiftRight, Nat.testBit_and, mask, Nat.testBit_two_pow_sub_one]
    by_cases hia : i + a % w < w
    · have h1 : (i + a % w) % w = a % w + i := by rw [Nat.mod_eq_of_lt hia]; omega
      have h2 : ¬ w - a % w ≤ i := by omega
      have h3 : a % w + i < w := by omega
      simp [h1, h2, h3]
    · have h1 : (i + a % w) % w = i - (w - a % w) := by
        rw [show i + a % w = (i - (w - a % w)) + w by omega, Nat.add_mod_right, Nat.mod_eq_of_lt (by omega)]
      have h2 : ¬ a % w + i < w := by omega
      have h3 : w - a % w ≤ i := by omega
      have h4 : i - (w - a % w) < w := by omega
      simp [h1, h2, h3, h4]

/-- `RotL` of a value of the width is the bit vector's own rotation. -/
theorem rotL_eq_rotateLeft {w : Nat} (x : BitVec w) (a : Nat) (ha : a < w) : rotL x.toNat a w = x.rotateLeft a := by
  apply BitVec.eq_of_getLsbD_eq
  intro i hi
  have hm : a % w = a := Nat.mod_eq_of_lt ha
  rw [rotL_getLsbD _ _ _ hi, BitVec.getLsbD_rotateLeft, hm, BitVec.testBit_toNat]
  by_cases hia : i < a
  · simp [hia, Nat.mod_eq_of_lt (show i + (w - a) < w by omega), Nat.add_comm]
  · simp [hia, hi, show i + (w - a) = (i - a) + w by omega, Nat.mod_eq_of_lt (show i - a < w by omega)]

/-- `RotR` of a value of the width is the bit vector's own rotation. -/
theorem rotR_eq_rotateRight {w : Nat} (x : BitVec w) (a : Nat) (ha : a < w) : rotR x.toNat a w = x.rotateRight a := by
  apply BitVec.eq_of_getLsbD_eq
  intro i hi
  have hm : a % w = a := Nat.mod_eq_of_lt ha
  rw [rotR_getLsbD _ _ _ hi, BitVec.getLsbD_rotateRight, hm, BitVec.testBit_toNat]
  by_cases hia : i < w - a
  · rw [Nat.mod_eq_of_lt (show i + a < w by omega), Nat.add_comm]
    simp [hia]
  · simp [hia, hi, show i + a = (i - (w - a)) + w by omega, Nat.mod_eq_of_lt (show i - (w - a) < w by omega)]

end Sys2Proof.Machine
end

