-- ==== Sys2Proof/Laws/Layers.lean ====
section
/-!
SUPPORT. What the layers of the round function do to each nibble (spec/41_round_function.md rules R101 to
R105, spec/42_reverse_round.md rule R120), and the halves of a block (spec/44_feistel.md rule R138).
-/

namespace Sys2Proof.Machine

/-- Nibble `i` of the S-layer is table `i` of nibble `i` (R101). -/
@[simp] theorem nib_sLayer (rom : Rom) (x : Word) (m : Mode) (i : Lane) :
    nib (sLayer rom x m) i = sub rom (laneTable i) (nib x i) m := by
  simp [sLayer]

/-- Nibble `i` of the P-layer is nibble `P[i]` (R103). -/
@[simp] theorem nib_pLayer (rom : Rom) (z : Word) (i : Lane) : nib (pLayer rom z) i = nib z rom.p[i] := by
  simp [pLayer]

/-- Nibble `i` of the inverse P-layer is nibble `PINV[i]` (R104). -/
@[simp] theorem nib_pInvLayer (rom : Rom) (u : Word) (i : Lane) :
    nib (pInvLayer rom u) i = nib u rom.pinv[i] := by
  simp [pInvLayer]

/-- Bit `i` of an activity vector says that nibble `i` is not 0 (R102). -/
@[simp] theorem act_getLsbD (z : Word) (i : Lane) : (act z).getLsbD i = decide (nib z i ≠ 0) := by
  rw [act, activity_getLsbD _ _ i.isLt, lanes_getElem]

/-- In differential mode every table is `DS`, so the table number does not matter (R100). -/
theorem sub_diff_table (rom : Rom) (t t' : Fin 10) (x : Nibble) : sub rom t x .diff = sub rom t' x .diff := rfl

/-- `DS` on a nibble, where it is the saturating table (R15). -/
theorem sub_diff {rom : Rom} (h : SaturatingTable rom) (t : Fin 10) (x : Nibble) :
    sub rom t x .diff = if x = 0 then 0 else 0xF := h x

/-- Nibble `i` of `F` is the substituted nibble `P[i]` (R105). -/
theorem nib_roundF (rom : Rom) (x : Word) (m : Mode) (i : Lane) :
    nib (roundF rom x m).1 i = sub rom (laneTable rom.p[i]) (nib x rom.p[i]) m := by
  simp [roundF]

/-- Bit `i` of the vector of `F` says that the output of S-box `i` is not 0 (R102, R105). -/
theorem roundF_av_getLsbD (rom : Rom) (x : Word) (m : Mode) (i : Lane) :
    (roundF rom x m).2.getLsbD i = decide (sub rom (laneTable i) (nib x i) m ≠ 0) := by
  rw [roundF, act_getLsbD, nib_sLayer]

/-- A nibble of the low half is the nibble of the block. -/
theorem nib_low32 (b : Block) (i : Lane) : nib (low32 b) i = nib b i := by
  apply BitVec.eq_of_getLsbD_eq
  intro k hk
  have : 4 * i.val + k < 32 := by omega
  simp [nib_getLsbD _ _ _ hk, low32, this]

/-- A nibble of a zero-extended word, at a position of the word. -/
theorem nib_zext64 (x : Word) (i : Lane) : nib (zext64 x) i = nib x i := by
  apply BitVec.eq_of_getLsbD_eq
  intro k hk
  have : 4 * i.val + k < 64 := by omega
  simp [nib_getLsbD _ _ _ hk, zext64, this]

/-- A zero-extended word has no high half (R63). -/
theorem high32_zext64 (x : Word) : high32 (zext64 x) = 0 := by
  apply BitVec.eq_of_getLsbD_eq
  intro k hk
  simp [high32, zext64, hk]

/-- The low half of a zero-extended word is the word. -/
@[simp] theorem low32_zext64 (x : Word) : low32 (zext64 x) = x := by
  apply BitVec.eq_of_getLsbD_eq
  intro k hk
  have : k < 64 := by omega
  simp [low32, zext64, hk, this]

/-- A bit of a joined block (R138). -/
theorem join_getLsbD (x0 x1 : Word) (k : Nat) :
    (join x0 x1).getLsbD k = if k < 32 then x0.getLsbD k else x1.getLsbD (k - 32) :=
  BitVec.getLsbD_append

/-- The low half of a joined block (R138). -/
@[simp] theorem low32_join (x0 x1 : Word) : low32 (join x0 x1) = x0 := by
  apply BitVec.eq_of_getLsbD_eq
  intro k hk
  simp [low32, join_getLsbD, hk]

/-- The high half of a joined block (R138). -/
@[simp] theorem high32_join (x0 x1 : Word) : high32 (join x0 x1) = x1 := by
  apply BitVec.eq_of_getLsbD_eq
  intro k hk
  simp [high32, join_getLsbD, hk]

/-- The halves of a block joined are the block (R138). -/
@[simp] theorem join_low_high (b : Block) : join (low32 b) (high32 b) = b := by
  apply BitVec.eq_of_getLsbD_eq
  intro k hk
  simp only [join_getLsbD, low32, high32]
  by_cases h : k < 32
  · simp [h]
  · simp [h, show k - 32 < 32 by omega, show 32 + (k - 32) = k by omega]

end Sys2Proof.Machine
end

