-- ==== Sys2Proof/Laws/Rounds.lean ====
section
/-!
SUPPORT. The list of rounds of a range and the round loop (spec/44_feistel.md rules R142, R143): what a run
over a list of rounds gives, said once for both directions.
-/

namespace Sys2Proof.Machine

/-- The rounds of a range are those between its bounds (R142). -/
@[simp] theorem mem_roundsUp {lo hi r : Round} : r ∈ roundsUp lo hi ↔ lo ≤ r ∧ r ≤ hi := by
  simp [roundsUp, List.mem_finRange]

/-- No range has more than 32 rounds (R141). -/
theorem length_roundsUp_le (lo hi : Round) : (roundsUp lo hi).length ≤ 32 :=
  (List.length_filter_le _ _).trans (by simp)

/-- The rounds of a range, as numbers, are `lo, lo+1, ..., hi`. -/
theorem roundsUp_map_val (lo hi : Round) : (roundsUp lo hi).map Fin.val = List.range' lo.val (hi.val + 1 - lo.val) := by
  revert lo hi
  decide +kernel

/-- A run over two lists of rounds one after the other: the second starts from the halves the first leaves;
the trails follow each other, and the first trace loses its final pair. -/
theorem runRounds_append (round : Round → Word → Word → RoundOut) (rs rs' : List Round) (x0 x1 : Word) :
    runRounds round (rs ++ rs') x0 x1 =
      let a := runRounds round rs x0 x1
      let b := runRounds round rs' a.x0 a.x1
      ⟨b.x0, b.x1, a.trk ++ b.trk, a.ist.take rs.length ++ b.ist⟩ := by
  induction rs generalizing x0 x1 with
  | nil => simp [runRounds]
  | cons r rest ih => simp [runRounds, ih]

/-- One vector per round (R142). -/
@[simp] theorem runRounds_length_trk (round : Round → Word → Word → RoundOut) (rs : List Round) (x0 x1 : Word) :
    (runRounds round rs x0 x1).trk.length = rs.length := by
  induction rs generalizing x0 x1 with
  | nil => simp [runRounds]
  | cons r rest ih => simp [runRounds, ih]

/-- One word per round and the final pair (R142). -/
@[simp] theorem runRounds_length_ist (round : Round → Word → Word → RoundOut) (rs : List Round) (x0 x1 : Word) :
    (runRounds round rs x0 x1).ist.length = rs.length + 2 := by
  induction rs generalizing x0 x1 with
  | nil => simp [runRounds]
  | cons r rest ih => simp [runRounds, ih]

/-- The trail of a forward run has one vector per round of its range (R142). -/
theorem runForward_length_trk (rom : Rom) (b : Block) (rk : Vector Word 32) (m : Mode) (lo hi : Round) :
    (runForward rom b rk m lo hi).trk.length = hi.val + 1 - lo.val := by
  have := congrArg List.length (roundsUp_map_val lo hi)
  simpa [runForward] using this

/-- The trail of a backward run has one vector per round of its range (R143). -/
theorem runBackward_length_trk (rom : Rom) (b : Block) (rk : Vector Word 32) (m : Mode) (lo hi : Round) :
    (runBackward rom b rk m lo hi).trk.length = hi.val + 1 - lo.val := by
  have := congrArg List.length (roundsUp_map_val lo hi)
  simpa [runBackward] using this

/-- The trace of a forward run has two words more than its trail (R142). -/
theorem runForward_length_ist (rom : Rom) (b : Block) (rk : Vector Word 32) (m : Mode) (lo hi : Round) :
    (runForward rom b rk m lo hi).ist.length = (runForward rom b rk m lo hi).trk.length + 2 := by
  simp [runForward]

/-- The trace of a backward run has two words more than its trail (R143). -/
theorem runBackward_length_ist (rom : Rom) (b : Block) (rk : Vector Word 32) (m : Mode) (lo hi : Round) :
    (runBackward rom b rk m lo hi).ist.length = (runBackward rom b rk m lo hi).trk.length + 2 := by
  simp [runBackward]

end Sys2Proof.Machine
end

