-- ==== Sys2Proof/Laws/Trails.lean ====
section
/-!
SUPPORT. The records of trails and traces: the count, the entries and the bound of the record of a sequence
that fits it (spec/10_state.md rules R22, R23), and the records a run leaves (spec/44_feistel.md rules R142,
R143).
-/

namespace Sys2Proof.Machine

/-- The entries of an array filled from a list that are there are the entries of the list. -/
theorem ofFn_getElem?_toList {α : Type} {cap : Nat} (l : List α) (hl : l.length ≤ cap) :
    (((Vector.ofFn fun k : Fin cap => l[k.val]?).toList).take l.length).filterMap id = l := by
  have h : ((Vector.ofFn fun k : Fin cap => l[k.val]?).toList).take l.length = l.map some := by
    apply List.ext_getElem?
    intro i
    by_cases hi : i < l.length
    · have : i < cap := by omega
      simp [hi, this]
    · simp [hi]
  rw [h]
  simp

/-- An array filled from a list is filled up to the length of the list. -/
theorem filledTo_ofFn {α : Type} {cap : Nat} (l : List α) :
    FilledTo (Vector.ofFn fun k : Fin cap => l[k.val]?) l.length := by
  intro k
  by_cases h : k.val < l.length <;> simp [h]

/-- The 6-bit count of a trail record is the number of vectors. -/
theorem trailRecord_n {l : List ActVec} (h : l.length ≤ 32) : (trailRecord l).n.toNat = l.length := by
  simp [trailRecord]
  omega

/-- The 6-bit count of a trace record is the number of words. -/
theorem traceRecord_n {l : List Word} (h : l.length ≤ 34) : (traceRecord l).n.toNat = l.length := by
  simp [traceRecord]
  omega

/-- Entry `k` of a trail record is vector `k`, absent beyond the last. -/
@[simp] theorem trailRecord_getElem (l : List ActVec) (k : Fin 32) : (trailRecord l).v[k] = l[k.val]? := by
  simp [trailRecord]

/-- Entry `k` of a trace record is word `k`, absent beyond the last. -/
@[simp] theorem traceRecord_getElem (l : List Word) (k : Fin 34) : (traceRecord l).v[k] = l[k.val]? := by
  simp [traceRecord]

/-- The vectors of a trail record are those recorded. -/
theorem trailEntries_trailRecord {l : List ActVec} (h : l.length ≤ 32) : trailEntries (trailRecord l) = l := by
  unfold trailEntries
  rw [trailRecord_n h]
  exact ofFn_getElem?_toList l h

/-- The words of a trace record are those recorded. -/
theorem traceEntries_traceRecord {l : List Word} (h : l.length ≤ 34) : traceEntries (traceRecord l) = l := by
  unfold traceEntries
  rw [traceRecord_n h]
  exact ofFn_getElem?_toList l h

/-- The record of at most 32 vectors keeps its bound. -/
theorem trailRecord_bounded {l : List ActVec} (h : l.length ≤ 32) : (trailRecord l).Bounded := by
  rw [Trail.Bounded, trailRecord_n h]
  exact ⟨h, filledTo_ofFn l⟩

/-- The record of at most 34 words keeps its bound. -/
theorem traceRecord_bounded {l : List Word} (h : l.length ≤ 34) : (traceRecord l).Bounded := by
  rw [Trace.Bounded, traceRecord_n h]
  exact ⟨h, filledTo_ofFn l⟩

/-- An empty trail keeps its bound. -/
theorem noTrail_bounded : noTrail.Bounded := ⟨by decide, fun k => by simp [noTrail]⟩

/-- An empty trace keeps its bound. -/
theorem noTrace_bounded : noTrace.Bounded := ⟨by decide, fun k => by simp [noTrace]⟩

/-- The trail of a forward run fits its record. -/
theorem runForward_trk_le (rom : Rom) (b : Block) (rk : Vector Word 32) (m : Mode) (lo hi : Round) :
    (runForward rom b rk m lo hi).trk.length ≤ 32 := by
  rw [runForward_length_trk]
  omega

/-- The trail of a backward run fits its record. -/
theorem runBackward_trk_le (rom : Rom) (b : Block) (rk : Vector Word 32) (m : Mode) (lo hi : Round) :
    (runBackward rom b rk m lo hi).trk.length ≤ 32 := by
  rw [runBackward_length_trk]
  omega

/-- The trace of a forward run fits its record. -/
theorem runForward_ist_le (rom : Rom) (b : Block) (rk : Vector Word 32) (m : Mode) (lo hi : Round) :
    (runForward rom b rk m lo hi).ist.length ≤ 34 := by
  have := runForward_trk_le rom b rk m lo hi
  rw [runForward_length_ist]
  omega

/-- The trace of a backward run fits its record. -/
theorem runBackward_ist_le (rom : Rom) (b : Block) (rk : Vector Word 32) (m : Mode) (lo hi : Round) :
    (runBackward rom b rk m lo hi).ist.length ≤ 34 := by
  have := runBackward_trk_le rom b rk m lo hi
  rw [runBackward_length_ist]
  omega

end Sys2Proof.Machine
end

