-- ==== Sys2Proof/Laws/Exec.lean ====
section
/-!
SUPPORT. Each operation on a ready request, as the state it leaves: one lemma per operation, which a proof
about it cites instead of unfolding its meaning; and what every operation has in common, said once.
-/

namespace Sys2Proof.Machine

/-! ### What the ends of the operations leave -/

section
variable (s : State) (rki : Vector Word 32) (run : Run) (last lo hi : Round) (t : Bool) (key : Key) (d : Block)
  (cnd : Vector Candidate 77)

@[simp] theorem finishRun_x0 : (finishRun s rki run last t).x0 = run.x0 := rfl
@[simp] theorem finishRun_x1 : (finishRun s rki run last t).x1 = run.x1 := rfl
@[simp] theorem finishRun_rk : (finishRun s rki run last t).rk = rki := rfl
@[simp] theorem finishRun_trk : (finishRun s rki run last t).trk = trailRecord run.trk := rfl
@[simp] theorem finishRun_ist : (finishRun s rki run last t).ist = traceRecord run.ist := rfl
@[simp] theorem finishRun_r : (finishRun s rki run last t).r = BitVec.ofFin last := rfl
@[simp] theorem finishRun_rsp : (finishRun s rki run last t).rsp = some (runResponse run t) := rfl
@[simp] theorem finishCipher_x0 : (finishCipher s key rki run last).x0 = run.x0 := rfl
@[simp] theorem finishCipher_x1 : (finishCipher s key rki run last).x1 = run.x1 := rfl
@[simp] theorem finishCipher_k : (finishCipher s key rki run last).k = finalKey s.rom key .real := rfl
@[simp] theorem finishCipher_rk : (finishCipher s key rki run last).rk = rki := rfl
@[simp] theorem finishCipher_trk : (finishCipher s key rki run last).trk = s.trk := rfl
@[simp] theorem finishCipher_ist : (finishCipher s key rki run last).ist = s.ist := rfl
@[simp] theorem finishCipher_r : (finishCipher s key rki run last).r = BitVec.ofFin last := rfl
@[simp] theorem finishCipher_rsp : (finishCipher s key rki run last).rsp = some (runResponse run false) := rfl
@[simp] theorem finishRank_trk : (finishRank s d lo hi cnd).trk = trailRecord (candidateRun s.rom d lo hi 76).trk := rfl
@[simp] theorem finishRank_ist : (finishRank s d lo hi cnd).ist = s.ist := rfl
@[simp] theorem finishRank_cnd : (finishRank s d lo hi cnd).cnd = cnd := rfl
@[simp] theorem finishRank_j : (finishRank s d lo hi cnd).j = 76 := rfl
@[simp] theorem finishRank_rsp : (finishRank s d lo hi cnd).rsp = some { done with cndo := some cnd } := rfl

/-- Every record of a ranking is the evaluation of a candidate (R165, R166). -/
theorem ranking_getElem (rom : Rom) (k : Fin 77) : ∃ j, (ranking rom d lo hi)[k] = evaluate rom d lo hi j := by
  have h : (ranking rom d lo hi)[k] ∈ rankList rom d lo hi := by simp [ranking]
  rw [rankList, List.mem_insertionSort, List.mem_map] at h
  obtain ⟨j, -, e⟩ := h
  exact ⟨j, e.symm⟩

end

/-! ### Each operation on a ready request -/

section
variable {s : State} {q : Request}

/-- SLYR on a ready request (R107). -/
theorem exec_slyr (h : Ready s q) (m : Mode) :
    exec (.slyr m) s = .next (answer s { done with r := some (zext64 (sLayer s.rom (low32 q.a) m)) }) := by
  unfold exec execSlyr
  exact serve_ok h rfl

/-- PLYR on a ready request (R108). -/
theorem exec_plyr (h : Ready s q) :
    exec .plyr s = .next (answer s { done with r := some (zext64 (pLayer s.rom (low32 q.a))) }) := by
  unfold exec execPlyr
  exact serve_ok h rfl

/-- PINV on a ready request (R109). -/
theorem exec_pinv (h : Ready s q) :
    exec .pinv s = .next (answer s { done with r := some (zext64 (pInvLayer s.rom (low32 q.a))) }) := by
  unfold exec execPinv
  exact serve_ok h rfl

/-- FRND on a ready request (R110). -/
theorem exec_frnd (h : Ready s q) (m : Mode) (t : Bool) :
    exec (.frnd m t) s = .next (answer s { done with r := some (zext64 (roundF s.rom (low32 q.a) m).1),
                                                     av := whenTraced t (roundF s.rom (low32 q.a) m).2 }) := by
  unfold exec execFrnd
  exact serve_ok h rfl

/-- RREV on a ready request (R121). -/
theorem exec_rrev (h : Ready s q) :
    exec .rrev s = .next (answer s { done with r := some (zext64 (revF s.rom (low32 q.a) (high32 q.a)).1),
                                               av := some (revF s.rom (low32 q.a) (high32 q.a)).2 }) := by
  unfold exec execRrev
  exact serve_ok h rfl

/-- KSCH on a ready request (R131). -/
theorem exec_ksch (h : Ready s q) (m : Mode) :
    exec (.ksch m) s = .next (answer (holdSchedule s (finalKey s.rom q.key m) (keySchedule s.rom q.key m))
      { done with rko := some (keySchedule s.rom q.key m) }) := by
  unfold exec execKsch
  exact serve_ok h rfl

/-- RNDF on a ready request and a valid range (R146). -/
theorem exec_rndf (h : Ready s q) (m : Mode) (t : Bool) {lo hi : Round} (hr : lo ≤ hi) :
    exec (.rndf m t lo hi) s = .next (finishRun s q.rki (runForward s.rom q.a q.rki m lo hi) hi t) := by
  unfold exec execRndf
  exact serve_ok h (withRange_valid hr _)

/-- RNDB on a ready request and a valid range (R147). -/
theorem exec_rndb (h : Ready s q) (m : Mode) (t : Bool) {lo hi : Round} (hr : lo ≤ hi) :
    exec (.rndb m t lo hi) s = .next (finishRun s q.rki (runBackward s.rom q.a q.rki m lo hi) lo t) := by
  unfold exec execRndb
  exact serve_ok h (withRange_valid hr _)

/-- ENCB on a ready request (R148). -/
theorem exec_encb (h : Ready s q) :
    exec .encb s = .next (finishCipher s q.key (keySchedule s.rom q.key .real)
      (runForward s.rom q.a (keySchedule s.rom q.key .real) .real 0 31) 31) := by
  unfold exec execEncb
  exact serve_ok h rfl

/-- DECB on a ready request (R149). -/
theorem exec_decb (h : Ready s q) :
    exec .decb s = .next (finishCipher s q.key (keySchedule s.rom q.key .real)
      (runBackward s.rom q.a (keySchedule s.rom q.key .real) .real 0 31) 0) := by
  unfold exec execDecb
  exact serve_ok h rfl

/-- WGHT on a ready request with a count in 1..32 (R163). -/
theorem exec_wght (h : Ready s q) (h1 : 1 ≤ q.tri.n.toNat) (h32 : q.tri.n.toNat ≤ 32) :
    exec .wght s
      = .next (answer s { done with wt := some (weightBits (trailWeight (trailVectors q.tri))) }) := by
  have hl : trailCountLegal q.tri.n = true := by simpa [trailCountLegal] using h32
  have hv : trailVectors q.tri ≠ [] := by
    intro he
    have := congrArg List.length he
    simp [trailVectors] at this
    omega
  unfold exec execWght
  exact serve_ok h (by simp [hl, weight, hv])

/-- RANK on a ready request and a valid range (R167). -/
theorem exec_rank (h : Ready s q) {lo hi : Round} (hr : lo ≤ hi) :
    exec (.rank lo hi) s = .next (finishRank s q.a lo hi (ranking s.rom q.a lo hi)) := by
  unfold exec execRank
  exact serve_ok h (withRange_valid hr _)

end

/-- What every operation has in common: it is served, and a work that completes leaves the tables and `TFAULT`
as they are and hands back a response with code 0. -/
theorem exec_is_served (i : Instr) (s : State) :
    ∃ work : Request → Except ErrCode State, exec i s = serve s work
      ∧ ∀ q s', work q = .ok s' →
          s'.rom = s.rom ∧ s'.tfault = s.tfault ∧ s'.req = none ∧ ∃ rsp, s'.rsp = some rsp ∧ rsp.err = 0 := by
  cases i with
  | slyr m =>
    unfold exec execSlyr
    exact ⟨_, rfl, fun q s' h => by cases h; exact ⟨rfl, rfl, rfl, _, rfl, rfl⟩⟩
  | plyr =>
    unfold exec execPlyr
    exact ⟨_, rfl, fun q s' h => by cases h; exact ⟨rfl, rfl, rfl, _, rfl, rfl⟩⟩
  | pinv =>
    unfold exec execPinv
    exact ⟨_, rfl, fun q s' h => by cases h; exact ⟨rfl, rfl, rfl, _, rfl, rfl⟩⟩
  | frnd m t =>
    unfold exec execFrnd
    exact ⟨_, rfl, fun q s' h => by cases h; exact ⟨rfl, rfl, rfl, _, rfl, rfl⟩⟩
  | rrev =>
    unfold exec execRrev
    exact ⟨_, rfl, fun q s' h => by cases h; exact ⟨rfl, rfl, rfl, _, rfl, rfl⟩⟩
  | ksch m =>
    unfold exec execKsch
    exact ⟨_, rfl, fun q s' h => by cases h; exact ⟨rfl, rfl, rfl, _, rfl, rfl⟩⟩
  | encb =>
    unfold exec execEncb
    exact ⟨_, rfl, fun q s' h => by cases h; exact ⟨rfl, rfl, rfl, _, rfl, rfl⟩⟩
  | decb =>
    unfold exec execDecb
    exact ⟨_, rfl, fun q s' h => by cases h; exact ⟨rfl, rfl, rfl, _, rfl, rfl⟩⟩
  | rndf m t lo hi =>
    refine ⟨_, rfl, fun q s' h => ?_⟩
    simp only [withRange] at h
    split at h
    · cases h
    · cases h; exact ⟨rfl, rfl, rfl, _, rfl, rfl⟩
  | rndb m t lo hi =>
    refine ⟨_, rfl, fun q s' h => ?_⟩
    simp only [withRange] at h
    split at h
    · cases h
    · cases h; exact ⟨rfl, rfl, rfl, _, rfl, rfl⟩
  | rank lo hi =>
    refine ⟨_, rfl, fun q s' h => ?_⟩
    simp only [withRange] at h
    split at h
    · cases h
    · cases h; exact ⟨rfl, rfl, rfl, _, rfl, rfl⟩
  | wght =>
    refine ⟨_, rfl, fun q s' h => ?_⟩
    dsimp only at h
    split at h
    · split at h
      · cases h; exact ⟨rfl, rfl, rfl, _, rfl, rfl⟩
      · cases h
    · cases h

end Sys2Proof.Machine
end

