-- ==== Sys2Proof/Laws/PerInstr.lean ====
section
/-!
SUPPORT. Statements about every operation as syntax, one lemma per constructor.
-/

/-- The fields of an operation's word are legal: `OP` names an operation and every field the operation does
not use is 0 (spec/30_encoding.md rules R66, R71). -/
def Sys2Proof.Laws.LegalFields.Statement (i : Sys2Proof.Instr) : Prop := (Sys2Proof.fieldsOf i).wf = true

namespace Sys2Proof.Laws.LegalFields

theorem slyr (m : Mode) : Statement (.slyr m) := by cases m <;> rfl
theorem plyr : Statement .plyr := by rfl
theorem pinv : Statement .pinv := by rfl
theorem frnd (m : Mode) (t : Bool) : Statement (.frnd m t) := by cases m <;> cases t <;> rfl
theorem rrev : Statement .rrev := by rfl
theorem ksch (m : Mode) : Statement (.ksch m) := by cases m <;> rfl
theorem rndf (m : Mode) (t : Bool) (lo hi : Round) : Statement (.rndf m t lo hi) := by
  simp [Statement, Fields.wf, fieldsOf, opLegal, usesMode, usesTrace, usesRange]
theorem rndb (m : Mode) (t : Bool) (lo hi : Round) : Statement (.rndb m t lo hi) := by
  simp [Statement, Fields.wf, fieldsOf, opLegal, usesMode, usesTrace, usesRange]
theorem encb : Statement .encb := by rfl
theorem decb : Statement .decb := by rfl
theorem wght : Statement .wght := by rfl
theorem rank (lo hi : Round) : Statement (.rank lo hi) := by
  simp [Statement, Fields.wf, fieldsOf, opLegal, usesMode, usesTrace, usesRange]

end Sys2Proof.Laws.LegalFields
end

