-- ==== Sys2Proof/Tests/Slice0.lean ====
section
/-!
SUPPORT. The model's own tests. Every expected value is from spec/95_test_vectors.md (sections named) or is
written out by hand from an encoding or a table of the spec. After them, one witness for the hypotheses of
each statement that has any.
-/

namespace Sys2Proof.Tests

open Sys2Proof Sys2Proof.Machine

/-! ### Well-formedness: an ill-formed term for each check, and the legal neighbour -/

/-- R71 (a): `OP` below and above the operations. -/
theorem test_wf_op : (⟨0x0, 0, 0, 0, 0⟩ : Fields).wf = false ∧ (⟨0xD, 0, 0, 0, 0⟩ : Fields).wf = false
    ∧ (⟨0xC, 0, 0, 0, 0⟩ : Fields).wf = true := by decide

/-- R71 (b): PLYR does not use `M`. -/
theorem test_wf_mode : (⟨0x2, 1, 0, 0, 0⟩ : Fields).wf = false ∧ (⟨0x1, 1, 0, 0, 0⟩ : Fields).wf = true := by decide

/-- R71 (b): SLYR does not use `T`. -/
theorem test_wf_trace : (⟨0x1, 0, 1, 0, 0⟩ : Fields).wf = false ∧ (⟨0x4, 0, 1, 0, 0⟩ : Fields).wf = true := by decide

/-- R71 (b): ENCB uses neither end of the range. -/
theorem test_wf_range : (⟨0x9, 0, 0, 1, 0⟩ : Fields).wf = false ∧ (⟨0x9, 0, 0, 0, 1⟩ : Fields).wf = false
    ∧ (⟨0xC, 0, 0, 31, 31⟩ : Fields).wf = true := by decide

/-- R69: a trail count of 33 is too long, 32 is not. -/
theorem test_wf_trail : trailCountLegal 33 = false ∧ trailCountLegal 32 = true := by decide

/-- R13, R200: `S[3]` with two equal entries fails the check (spec/95 section 9.2). -/
theorem test_wf_table :
    sboxBijective #v[7, 6, 8, 11, 0, 15, 3, 14, 9, 10, 12, 13, 5, 2, 4, 4] = false
      ∧ sboxBijective defaultSbox[3] = true := by decide

/-! ### Decoding: words written out bit by bit from R65 and R66 -/

theorem test_decode_slyr : decode 0b0001100000000000 = .ok (.slyr .diff) := by decide
theorem test_decode_plyr : decode 0b0010000000000000 = .ok .plyr := by decide
theorem test_decode_pinv : decode 0b0011000000000000 = .ok .pinv := by decide
theorem test_decode_frnd : decode 0b0100010000000000 = .ok (.frnd .real true) := by decide
theorem test_decode_rrev : decode 0b0101000000000000 = .ok .rrev := by decide
theorem test_decode_ksch : decode 0b0110100000000000 = .ok (.ksch .diff) := by decide
theorem test_decode_rndf : decode 0b0111011000011111 = .ok (.rndf .real true 16 31) := by decide
theorem test_decode_rndb : decode 0b1000101111100001 = .ok (.rndb .diff false 31 1) := by decide
theorem test_decode_encb : decode 0b1001000000000000 = .ok .encb := by decide
theorem test_decode_decb : decode 0b1010000000000000 = .ok .decb := by decide
theorem test_decode_wght : decode 0b1011000000000000 = .ok .wght := by decide
theorem test_decode_rank : decode 0b1100000110001111 = .ok (.rank 12 15) := by decide

/-- spec/95 section 9.2: words that are no command, with the reason. -/
theorem test_decode_illegal : decode 0x0000 = .error .illegalOp ∧ decode 0xD000 = .error .illegalOp
    ∧ decode 0xFFFF = .error .illegalOp ∧ decode 0x9001 = .error .reservedField
    ∧ decode 0x9800 = .error .reservedField ∧ decode 0x2400 = .error .reservedField
    ∧ decode 0x1400 = .error .reservedField ∧ decode 0x6001 = .error .reservedField
    ∧ decode 0xC81F = .error .reservedField := by decide

/-- spec/95 section 9.1: words of the assembler table. -/
theorem test_encode : encode (.frnd .diff true) = 0x4C00 ∧ encode (.rndf .real false 16 31) = 0x721F
    ∧ encode (.rndb .diff true 0 5) = 0x8C05 ∧ encode (.rank 12 15) = 0xC18F := by decide

/-- The host's reading of a table word: the word of R73's example. -/
theorem test_decodeTableWord : decodeTableWord 16 0x7403 = some (.rndf .real true 0 3) := by decide

/-! ### Utilities (spec/95 section 2) -/

theorem test_toArray : (toArray 0x12345 4 .lsnFirst).toList = [5, 4, 3, 2]
    ∧ (toArray 0x89ABCDEF 8 .msnFirst).toList = [8, 9, 0xA, 0xB, 0xC, 0xD, 0xE, 0xF] := by decide
theorem test_arrToInt : arrToInt #v[0xF, 0xE, 0xD, 0xC, 0xB, 0xA, 9, 8] .lsnFirst = 0x89ABCDEF := by decide
theorem test_rotL : rotL 0x100000001 8 32 = 0x00000100#32 ∧ rotL 0x12345678 40 32 = 0x34567812#32
    ∧ rotL 0x0123456789ABCDEFFEDC 29 80 = 0xF13579BDFFDB802468AC#80 := by decide
theorem test_rotR : rotR 0x12345678 8 32 = 0x78123456#32 ∧ rotR 1 1 32 = 0x80000000#32 := by decide
theorem test_combine : combine 0x0F0F00FF#32 0x00FF0F0F .real = 0x0FF00FF0
    ∧ combine 0x0F0F00FF#32 0x00FF0F0F .diff = 0x0FFF0FFF := by decide
theorem test_pop8 : pop8 0x25 = 3 ∧ pop8 0xFF = 8 ∧ pop8 0 = 0 := by decide

/-! ### One step per operation (spec/95 sections 3 to 8) -/

/-- A request at reset: the word and the block operand. -/
def block (w : CmdWord) (a : Block) : State := ask State.reset { blankRequest w with a := a }

/-- A request at reset with a block and a key. -/
def keyed (w : CmdWord) (a : Block) (key : Key) : State :=
  ask State.reset { blankRequest w with a := a, key := key }

/-- A request at reset for WGHT: the vectors given, then zeros, and the count. -/
def trail (n : BitVec 6) (v : Vector ActVec 32) : State := ask State.reset { blankRequest 0xB000 with tri := ⟨n, v⟩ }

/-- The differential schedule `d76` of spec/95 section 5.3, written out. -/
def d76 : Vector Word 32 := #v[
  0xF0000000, 0x00000000, 0x000003C0, 0x00000000, 0x00000000, 0x0001E000, 0x00000000, 0x00000000,
  0x00F00000, 0x00000000, 0x00000003, 0xFF000000, 0x00000000, 0x000003FC, 0xF0000000, 0x00000000,
  0x0001FFC0, 0x00000000, 0x00000000, 0x00FFE000, 0x00000000, 0x00000003, 0xFFF00000, 0x00000000,
  0x000003FF, 0xFF000000, 0x00000000, 0x0001FFFC, 0xF0000000, 0x00000000, 0x00FFFFC0, 0x00000000]

/-- A request at reset with a block and the subkeys `d76`. -/
def rounds (w : CmdWord) (a : Block) : State := ask State.reset { blankRequest w with a := a, rki := d76 }

/-- The code of a result's response. -/
def errOf (o : Result) : Option (BitVec 3) := (responseIn o).map Response.err

theorem test_slyr : resultR (step (block 0x1000 0xABCDEF9901234567)) = some 0x00000000D9B00D0B
    ∧ resultR (step (block 0x1800 0x00100203)) = some 0x0000000000F00F0F := by decide
theorem test_plyr : resultR (step (block 0x2000 0x76543210)) = some 0x64752031 := by decide
theorem test_pinv : resultR (step (block 0x3000 0x76543210)) = some 0x57461302 := by decide
theorem test_frnd : responseIn (step (block 0x4400 0x01234567))
    = some ⟨0, some 0x90DBDB00, some 0xE5, none, none, none, none, none⟩ := by decide
theorem test_frnd_diff : responseIn (step (block 0x4800 0x00100203))
    = some ⟨0, some 0x000FFF00, none, none, none, none, none, none⟩ := by decide
theorem test_rrev : responseIn (step (block 0x5000 0x0F0F0F0F12345678))
    = some ⟨0, some 0x3F4F7F8F, some 0xFF, none, none, none, none, none⟩ := by decide
theorem test_rrev_slots : responseIn (step (block 0x5000 0x00000100000F0000))
    = some ⟨0, some 0x00F00100, some 0x24, none, none, none, none, none⟩ := by decide

set_option maxRecDepth 4000 in
/-- The last subkey of the real schedule of spec/95 section 5.2, and round 1. -/
theorem test_ksch : ((responseIn (step (keyed 0x6000 0 0x0123456789ABCDEFFEDC))).bind Response.rko).map
    (fun rk => (rk[1], rk[31])) = some (0x673579BD, 0xF5D55639) := by decide

set_option maxRecDepth 4000 in
/-- The whole differential schedule of candidate 76 (spec/95 section 5.3). -/
theorem test_ksch_diff : ((responseIn (step (keyed 0x6800 0 0xF0000000000000000000))).bind Response.rko).map
    Vector.toList = some d76.toList := by decide

set_option maxRecDepth 4000 in
/-- Program P3, step 2 (spec/95 section 10): state, trail and trace. -/
theorem test_rndf : responseIn (step (rounds 0x7C05 0)) = some ⟨0, some 0xFFFFFFFFF0FFFFFF, none, none,
    some (trailRecord [0x80, 0x20, 0x16, 0xC9, 0xE6, 0xBF]),
    some (traceRecord [0, 0, 0x00F00000, 0x000F0000, 0xFF00F00F, 0xFFF00FF0, 0xF0FFFFFF, 0xFFFFFFFF]), none, none⟩ := by decide

set_option maxRecDepth 4000 in
/-- Program P3, step 4: the backward run, its traces reversed. -/
theorem test_rndb : responseIn (step (rounds 0x8C05 0xFFFFFFFFF0FFFFFF)) = some ⟨0, some 0xFFFFFFFFFFFFFFFF,
    none, none, some (trailRecord [0xFF, 0xFF, 0xFF, 0xFF, 0xFF, 0xBF]),
    some (traceRecord [0xFFFFFFFF, 0xFFFFFFFF, 0xFFFFFFFF, 0xFFFFFFFF, 0xFFFFFFFF, 0xFFFFFFFF, 0xFFFFFFFF,
      0xF0FFFFFF]),
    none, none⟩ := by decide

set_option maxRecDepth 4000 in
/-- spec/95 section 6.3: round 5 forward in real mode, with `RK[5]` alone set. -/
theorem test_rndf_real : resultR (step (ask State.reset { blankRequest 0x70A5 with
    a := 0xFFFFFFFFFFFFFFFF, rki := (Vector.replicate 32 0).set 5 0x24B8011F }))
      = some 0x82A071EEFFFFFFFF := by decide

/-- spec/95 section 6.1: one backward round in real mode with its traces. -/
theorem test_rndb_real : responseIn (step (ask State.reset { blankRequest 0x8400 with
    a := 0x151FF1FD01234567, rki := (Vector.replicate 32 0).set 0 0x01234567 }))
      = some ⟨0, some 0x0123456789ABCDEF, none, none, some (trailRecord [0xFF]),
          some (traceRecord [0x01234567, 0x89ABCDEF, 0x01234567]), none, none⟩ := by decide

set_option maxRecDepth 4000 in
/-- spec/95 section 6.4. -/
theorem test_encb : resultR (step (keyed 0x9000 0xFEDCBA9876543210 0x0F1E2D3C4B5A69788796))
    = some 0x9BAA241C9B854B62 := by decide

set_option maxRecDepth 16000 in
/-- Program P2, step 3: a wrong key gives a wrong block, not an error. -/
theorem test_decb : resultR (step (keyed 0xA000 0x9BAA241C9B854B62 0)) = some 0xBC5D04082CD0C198 := by decide

set_option maxRecDepth 4000 in
/-- spec/95 section 7: the vectors after the count are ignored; the largest weight needs nine bits. -/
theorem test_wght :
    (responseIn (step (trail 3 ((Vector.replicate 32 0xFF).set 0 0x25 |>.set 1 0x81 |>.set 2 0x00)))).bind Response.wt
        = some 5
      ∧ (responseIn (step (trail 32 (Vector.replicate 32 0xFF)))).bind Response.wt = some 256 := by decide

/-- spec/95 section 7: the empty trail and the trail that is too long. -/
theorem test_wght_errors : errOf (step (trail 0 (Vector.replicate 32 0))) = some 2
    ∧ errOf (step (trail 33 (Vector.replicate 32 0))) = some 4 := by decide

set_option maxRecDepth 8000 in
/-- spec/95 section 8.5: `RANK 0,0` with `A = 0`, the whole order. -/
theorem test_rank : ((responseIn (step (block 0xC000 0))).bind Response.cndo).map
    (fun cn => cn.toList.map fun c => (c.pos.toNat, c.wt.toNat))
      = some ((List.range 45).map (·, 0) ++ [45, 46, 47, 48, 52, 56, 60, 64, 68, 72, 76].map (·, 1)
          ++ [49, 50, 51, 53, 54, 55, 57, 58, 59, 61, 62, 63, 65, 66, 67, 69, 70, 71, 73, 74, 75].map (·, 2)) := by
  decide

/-- spec/95 sections 9.2: `MINR > MAXR` on the three range-bounded operations. -/
theorem test_invalidRange : errOf (step (block 0x70A4 0)) = some 1 ∧ errOf (step (block 0x83E0 0)) = some 1
    ∧ errOf (step (block 0xC0A4 0)) = some 1 := by decide

/-- spec/95 section 9.2: `IllegalCommand`, not `InvalidRange`, for ENCB with range bits set. -/
theorem test_illegalCommand : errOf (step (block 0x94A4 0)) = some 4 ∧ errOf (step (block 0x0000 0)) = some 4 := by
  decide

/-! ### Reset -/

/-- R18, R200: what the reset sequence computes from the default tables. -/
theorem test_reset : State.reset.tfault = false ∧ State.reset.rom.pinv = #v[2, 0, 3, 1, 6, 4, 7, 5] := by decide

/-- R15: the differential table. -/
theorem test_ds : diffTable = #v[0, 15, 15, 15, 15, 15, 15, 15, 15, 15, 15, 15, 15, 15, 15, 15] := by decide

/-- R14: the index each default table maps to 0. -/
theorem test_zero_preimages : defaultSbox.toList.map (fun t => t.toList.idxOf 0) = [3, 6, 6, 4, 3, 6, 4, 3, 6, 3] := by
  decide

/-! ### Witnesses: the hypotheses of the statements are met -/

/-- Tables of which the fourth is no bijection (R180). -/
def badTables : Config.Tables :=
  ⟨defaultSbox.set 3 #v[7, 6, 8, 11, 0, 15, 3, 14, 9, 10, 12, 13, 5, 2, 4, 4], defaultP, by decide⟩

/-- A request for RNDF.D.T 0,5 (spec/95 section 6.6). -/
def someRequest : Request := { blankRequest 0x7C05 with a := 0x0000000F00000001, rki := d76 }

/-- A state that asks it. -/
def someState : State := ask State.reset someRequest

/-- `Ready`: every result statement. -/
theorem witness_ready : Ready someState someRequest := ⟨rfl, by decide⟩

/-- `DecodeOfEncodeIsTheInstruction`, at both ends of the fields. -/
theorem witness_wf : (Instr.rndf .diff true 31 0).wf = true ∧ (Instr.rank 0 31).wf = true := by decide

/-- `EncodeOfDecodedIsTheWord`, `StepRunsTheDecodedInstruction`. -/
theorem witness_decode : someState.req = some someRequest ∧ decode someRequest.cmd = .ok (.rndf .diff true 0 5) := by
  decide

/-- `IllegalCommandExactlyWhenIllegal`: both sides, at the boundary of each clause. -/
theorem witness_illegal : illegalRequest (blankRequest 0x0FFF) = true ∧ illegalRequest (blankRequest 0x1000) = false
    ∧ illegalRequest (blankRequest 0xCFFF) = true ∧ illegalRequest (blankRequest 0xC3FF) = false
    ∧ illegalRequest { blankRequest 0xB000 with tri := ⟨33, Vector.replicate 32 0⟩ } = true
    ∧ illegalRequest { blankRequest 0xB000 with tri := ⟨32, Vector.replicate 32 0⟩ } = false := by decide

/-- `AssemblerNotation`: lines that write an unused suffix or range, one for each, and lines that stand for an
operation (spec/95 section 9.1). -/
theorem witness_assemble : writesUnusedField ⟨.plyr, true, false, none⟩ = true
    ∧ writesUnusedField ⟨.ksch, false, true, none⟩ = true ∧ writesUnusedField ⟨.decrypt, false, false, some (0, 0)⟩ = true
    ∧ assemble ⟨.rrev, false, false, none⟩ = some .rrev ∧ writtenWord ⟨.rrev, false, false, none⟩ = 0x5000
    ∧ assemble ⟨.rndb, true, true, some (0, 5)⟩ = some (.rndb .diff true 0 5)
    ∧ writtenWord ⟨.rndb, true, true, some (0, 5)⟩ = 0x8C05 := by decide

/-- `IdleBlockWaits`, `PresentOnlyWhenIdle`: an idle and a busy state. -/
theorem witness_idle : State.reset.req = none ∧ someState.req ≠ none := by decide

/-- `TableFaultAnswersEveryRequest`. -/
theorem witness_tfault : (ask (State.resetWith badTables) someRequest).req = some someRequest
    ∧ (ask (State.resetWith badTables) someRequest).tfault = true := by decide

/-- `ErrorPriority`: each of the five outcomes is met, with two conditions together where they can meet. -/
theorem witness_priority : expectedErr (State.resetWith badTables) (blankRequest 0x0000) = 3
    ∧ expectedErr State.reset (blankRequest 0x94A4) = 4 ∧ expectedErr State.reset (blankRequest 0x7020) = 1
    ∧ expectedErr State.reset (blankRequest 0xB000) = 2 ∧ expectedErr State.reset (blankRequest 0x7021) = 0 := by
  decide

/-- `InvalidRangeRejected`: the smallest and the largest invalid range. -/
theorem witness_invalidRange : (0 : Round) < 1 ∧ (0 : Round) < 31 ∧ (30 : Round) < 31 := by decide

/-- `ResponseCarriesExactlyItsFields`: a response without and one with an error. -/
theorem witness_fields : errOf (exec .plyr someState) = some 0 ∧ errOf (exec (.rank 1 0) someState) = some 1 := by
  decide

/-- `ResponseDependsOnRequestAndTablesOnly`: two different states that agree in what it asks. -/
theorem witness_purity :
    let s := someState
    let s' := { someState with x0 := 1, trk := trailRecord [0xFF] }
    s.rom = s'.rom ∧ s.tfault = s'.tfault ∧ s.req = s'.req ∧ s.req ≠ none ∧ s ≠ s' := by
  refine ⟨rfl, rfl, rfl, by decide, fun h => ?_⟩
  exact absurd (congrArg State.x0 h) (by decide)

/-- `RepeatedRequestSameResponse`, `TablesNeverChange`: a request is asked and the step answers. -/
theorem witness_step : someState.req = some someRequest ∧ ∃ t, step someState = .next t := ⟨rfl, _, rfl⟩

/-- `PermutationLayersAreInverse`, `RankOfAllOnes`, `RoundFunctionProperties`: `P` and `PINV` at reset. -/
theorem witness_permutations : InversePermutations someState.rom := by
  unfold InversePermutations
  decide

/-- `DifferentialScheduleLaws`, `ZeroDifferenceStaysZero`: `DS` at reset. -/
theorem witness_saturating : SaturatingTable someState.rom := by
  unfold SaturatingTable
  decide

/-- `RoundFunctionProperties` (a): the default tables are bijections. -/
theorem witness_bijective : ∀ t : Fin 10, BijectiveTable someState.rom.sbox[t] := by
  unfold BijectiveTable Function.Bijective Function.Injective Function.Surjective
  decide

/-- `StepKeepsTheInvariant`: a state with a request meets the invariant, and its step answers. -/
theorem witness_inv : Inv someState ∧ ∃ t, step someState = .next t := by
  refine ⟨⟨witness_permutations, witness_saturating, ⟨fun _ => witness_bijective, fun _ => by decide⟩,
    noTrail_bounded, noTrace_bounded, by decide, fun k => ?_, fun _ h => by simp [someState, State.reset, State.resetWith] at h,
    fun _ _ h => by simp [someState, State.reset, State.resetWith] at h⟩, _, rfl⟩
  have : someState.cnd[k] = blankCandidate := by simp [someState, State.reset, State.resetWith]
  rw [this]
  exact ⟨by decide, noTrail_bounded, by decide⟩

/-- `Rotations`: the smallest width and a datapath width. -/
theorem witness_width : 0 < 1 ∧ 0 < 32 := by decide

/-- The range premises: a range of one round at each end, and the whole cipher. -/
theorem witness_range : (0 : Round) ≤ 0 ∧ (31 : Round) ≤ 31 ∧ (0 : Round) ≤ 31 := by decide

/-- `RunsCompose`: the shortest and the source's split. -/
theorem witness_compose : ((0 : Round) ≤ 0 ∧ (0 : Round) < 1 ∧ (1 : Round).val = (0 : Round).val + 1)
    ∧ ((0 : Round) ≤ 15 ∧ (15 : Round) < 31 ∧ (16 : Round).val = (15 : Round).val + 1) := by decide

/-- `WeightGrowsWithTheRange`: the last range that can grow. -/
theorem witness_grow : (0 : Round) ≤ 30 ∧ (31 : Round).val = (30 : Round).val + 1 := by decide

/-- `WghtCountsActiveSboxes`: a count for each clause, at its bounds. -/
theorem witness_counts : (0 : BitVec 6).toNat = 0 ∧ (1 ≤ (1 : BitVec 6).toNat ∧ (1 : BitVec 6).toNat ≤ 32)
    ∧ (1 ≤ (32 : BitVec 6).toNat ∧ (32 : BitVec 6).toNat ≤ 32) ∧ 32 < (33 : BitVec 6).toNat := by decide

/-- `RankOfAllOnes`: a ready request of all ones. -/
theorem witness_allOnes : Ready (block 0xC01F (BitVec.allOnes 64)) { blankRequest 0xC01F with a := BitVec.allOnes 64 } :=
  ⟨rfl, by decide⟩

/-- `ZeroDifferenceStaysZero`: the request with every operand zero and a trail of 32 vectors. -/
theorem witness_zero :
    let q := { blankRequest 0x6800 with tri := ⟨32, Vector.replicate 32 0⟩ }
    Ready (ask State.reset q) q ∧ q.key = 0 ∧ q.a = 0 ∧ q.rki = Vector.replicate 32 0
      ∧ q.tri = ⟨32, Vector.replicate 32 0⟩ :=
  ⟨⟨rfl, by decide⟩, rfl, rfl, rfl, rfl⟩

/-- `WorkingRegisterWriters`: an operation for each clause that answers a next state. -/
theorem witness_writers : (∃ t, exec .plyr someState = .next t) ∧ runsTheRounds .plyr = false
    ∧ computesSchedule .plyr = false ∧ recordsTrail .plyr = false ∧ givesCandidates .plyr = false
    ∧ givesCandidates (.rank 0 0) = true ∧ ∃ t, exec (.rank 0 0) someState = .next t :=
  ⟨⟨_, rfl⟩, rfl, rfl, rfl, rfl, rfl, _, rfl⟩

end Sys2Proof.Tests
end

section
/-!
The obligations on what the block observes and records: `Combine` and its laws (spec/40_utilities.md section
4), the purity of a response (R9, R32, R57), and the counts of the recorded trails and traces (R7, R22, R23).
-/

namespace Sys2Proof.Machine

/-! ### Combine -/

section
variable {w : Nat} (a b : BitVec w)

@[simp] theorem combine_real : combine a b .real = a ^^^ b := rfl
@[simp] theorem combine_diff : combine a b .diff = a ||| b := rfl

theorem combine_comm (m : Mode) : combine a b m = combine b a m := by
  cases m with
  | real => exact BitVec.xor_comm a b
  | diff => exact BitVec.or_comm a b

@[simp] theorem combine_zero (m : Mode) : combine a 0 m = a := by
  cases m with
  | real => exact BitVec.xor_zero
  | diff => exact BitVec.or_zero

theorem combine_real_undoes_itself : combine (combine a b .real) b .real = a := by
  simp

theorem combine_diff_idempotent : combine (combine a b .diff) b .diff = combine a b .diff := by
  simp [BitVec.or_assoc]

end

/-- OR with 1 sends 0 and 1 to the same word, so nothing gives both back. -/
theorem not_exists_undo_combine_diff :
    ¬ ∃ undo : Word → Word → Word, ∀ a b : Word, undo (combine a b .diff) b = a := by
  rintro ⟨undo, h⟩
  have merged : combine (0 : Word) 1 .diff = combine 1 1 .diff := by decide
  have : (0 : Word) = 1 := by rw [← h 0 1, merged, h 1 1]
  exact absurd this (by decide)

/-- Settles O24, from the laws of XOR and OR at every width. -/
theorem combineLaws : Obligations.CombineLaws :=
  ⟨fun a b => ⟨combine_real a b, combine_diff a b⟩, fun a b m => ⟨combine_comm a b m, combine_zero a m⟩,
    combine_real_undoes_itself, combine_diff_idempotent, not_exists_undo_combine_diff⟩

/-! ### Purity -/

/-- The response the work of an operation ends with: the one its state carries, or the error's code alone
(R176, R184). -/
def workResponse : Except ErrCode State → Option Response
  | .ok t => t.rsp
  | .error e => some (responseOf e)

@[simp] theorem workResponse_ok (t : State) : workResponse (.ok t) = t.rsp := rfl
@[simp] theorem workResponse_error (e : ErrCode) : workResponse (.error e) = some (responseOf e) := rfl

/-- A range-bounded work is refused or goes through by its range alone. -/
theorem workResponse_withRange_congr {lo hi : Round} {t t' : State} (h : t.rsp = t'.rsp) :
    workResponse (withRange lo hi t) = workResponse (withRange lo hi t') := by
  rcases lt_or_ge hi lo with hlt | hle
  · simp [hlt]
  · simp [hle, h]

/-- `serve` answers with the response of its work, unless the tables are faulty. -/
theorem responseIn_serve {s : State} {q : Request} (h : s.req = some q) (work : Request → Except ErrCode State) :
    responseIn (serve s work)
      = if s.tfault then some (responseOf .tableIntegrity) else workResponse (work q) := by
  cases ht : s.tfault with
  | true => simp [serve_tfault h ht, responseIn]
  | false => cases hw : work q <;> simp [serve_ready ⟨h, ht⟩, hw, responseIn]

/-- Two states that agree in all that a response may depend on (R9, R32): the tables, `TFAULT`, and the request
presented. -/
structure AgreeOnInputs (s s' : State) (q : Request) : Prop where
  rom    : s.rom = s'.rom
  tfault : s.tfault = s'.tfault
  req    : s.req = some q
  req'   : s'.req = some q

section
variable {s s' : State} {q : Request}

/-- Works with the same response on the request are served with the same response. -/
theorem AgreeOnInputs.responseIn_serve_eq (h : AgreeOnInputs s s' q) {work work' : Request → Except ErrCode State}
    (hw : workResponse (work q) = workResponse (work' q)) :
    responseIn (serve s work) = responseIn (serve s' work') := by
  rw [responseIn_serve h.req, responseIn_serve h.req', h.tfault, hw]

/-- No operation's response depends on a working register. -/
theorem AgreeOnInputs.responseIn_exec_eq (h : AgreeOnInputs s s' q) (i : Instr) :
    responseIn (exec i s) = responseIn (exec i s') := by
  cases i with
  | slyr m =>
    unfold exec execSlyr
    exact h.responseIn_serve_eq (by simp [h.rom])
  | plyr =>
    unfold exec execPlyr
    exact h.responseIn_serve_eq (by simp [h.rom])
  | pinv =>
    unfold exec execPinv
    exact h.responseIn_serve_eq (by simp [h.rom])
  | frnd m t =>
    unfold exec execFrnd
    exact h.responseIn_serve_eq (by simp [h.rom])
  | rrev =>
    unfold exec execRrev
    exact h.responseIn_serve_eq (by simp [h.rom])
  | ksch m =>
    unfold exec execKsch
    exact h.responseIn_serve_eq (by simp [h.rom])
  | encb =>
    unfold exec execEncb
    exact h.responseIn_serve_eq (by simp [h.rom])
  | decb =>
    unfold exec execDecb
    exact h.responseIn_serve_eq (by simp [h.rom])
  | rndf m t lo hi =>
    unfold exec execRndf
    exact h.responseIn_serve_eq (workResponse_withRange_congr (by simp [h.rom]))
  | rndb m t lo hi =>
    unfold exec execRndb
    exact h.responseIn_serve_eq (workResponse_withRange_congr (by simp [h.rom]))
  | rank lo hi =>
    unfold exec execRank
    exact h.responseIn_serve_eq (workResponse_withRange_congr (by simp [h.rom]))
  | wght =>
    unfold exec execWght
    refine h.responseIn_serve_eq ?_
    cases trailCountLegal q.tri.n with
    | false => rfl
    | true => cases weight (trailVectors q.tri) <;> rfl

/-- The word decides what is run, and what is run depends on the inputs alone. -/
theorem AgreeOnInputs.responseIn_step_eq (h : AgreeOnInputs s s' q) : responseIn (step s) = responseIn (step s') := by
  rw [step_of_request h.req, step_of_request h.req']
  cases decode q.cmd with
  | ok i => exact h.responseIn_exec_eq i
  | error e => exact h.responseIn_serve_eq rfl

end

/-- Settles O14, by the purity of each operation's work. -/
theorem responseDependsOnRequestAndTablesOnly : Obligations.ResponseDependsOnRequestAndTablesOnly := by
  intro s s' hrom htf hreq hne
  obtain ⟨q, hq⟩ := Option.ne_none_iff_exists'.mp hne
  exact AgreeOnInputs.responseIn_step_eq ⟨hrom, htf, hq, hreq ▸ hq⟩

/-! ### Recorded counts -/

section
variable {lo hi : Round} (hr : lo ≤ hi)
include hr

/-- The record of one vector per round of a valid range has an exact count and keeps its bound (R22). -/
theorem trailRecord_of_range {l : List ActVec} (hl : l.length = hi.val + 1 - lo.val) :
    (trailRecord l).n.toNat = hi.val - lo.val + 1 ∧ (trailRecord l).Bounded := by
  have hlohi : lo.val ≤ hi.val := hr
  have hle : l.length ≤ 32 := by omega
  refine ⟨?_, trailRecord_bounded hle⟩
  rw [trailRecord_n hle]
  omega

/-- The record of one word per round of a valid range and the final pair has an exact count and keeps its bound
(R23). -/
theorem traceRecord_of_range {l : List Word} (hl : l.length = hi.val + 1 - lo.val + 2) :
    (traceRecord l).n.toNat = hi.val - lo.val + 3 ∧ (traceRecord l).Bounded := by
  have hlohi : lo.val ≤ hi.val := hr
  have hle : l.length ≤ 34 := by omega
  refine ⟨?_, traceRecord_bounded hle⟩
  rw [traceRecord_n hle]
  omega

/-- The registers after RNDF or RNDB, for any run that records one vector a round and two words more. -/
theorem finishRun_counts (s : State) (rki : Vector Word 32) {run : Run} (last : Round) (t : Bool)
    (htrk : run.trk.length = hi.val + 1 - lo.val) (hist : run.ist.length = run.trk.length + 2) :
    let a := finishRun s rki run last t
    a.trk.n.toNat = hi.val - lo.val + 1 ∧ a.ist.n.toNat = hi.val - lo.val + 3 ∧ a.trk.Bounded ∧ a.ist.Bounded := by
  obtain ⟨htn, htb⟩ := trailRecord_of_range hr htrk
  obtain ⟨hin, hib⟩ := traceRecord_of_range hr (htrk ▸ hist)
  exact ⟨htn, hin, htb, hib⟩

/-- The trail of one candidate (R165). -/
theorem candidateRun_trail (rom : Rom) (d : Block) (j : Fin 77) :
    (trailRecord (candidateRun rom d lo hi j).trk).n.toNat = hi.val - lo.val + 1
      ∧ (trailRecord (candidateRun rom d lo hi j).trk).Bounded :=
  trailRecord_of_range hr (runForward_length_trk ..)

/-- Each record of a ranking is the evaluation of a candidate and so holds its trail (R166, R169). The table is a
variable here, so that comparing two of its records does not sort it. -/
theorem ranking_trail {rom : Rom} {d : Block} {cnd : Vector Candidate 77} (hcnd : cnd = ranking rom d lo hi)
    (k : Fin 77) : cnd[k].tr.n.toNat = hi.val - lo.val + 1 ∧ cnd[k].tr.Bounded := by
  obtain ⟨j, hj⟩ := ranking_getElem lo hi d rom k
  rw [hcnd, hj]
  exact candidateRun_trail hr rom d j

/-- RANK completes, and leaves the trail of its last candidate and the ranking (R167). The state is not named, so
that no later proof sorts the table. -/
theorem exec_rank_leaves {s : State} {q : Request} (h : Ready s q) :
    ∃ f, exec (.rank lo hi) s = .next f ∧ f.trk = trailRecord (candidateRun s.rom q.a lo hi 76).trk
      ∧ f.cnd = ranking s.rom q.a lo hi :=
  ⟨_, exec_rank h hr, finishRank_trk .., finishRank_cnd ..⟩

end

/-- Settles O53: a run records one vector per round and two words more, in both directions and in each
candidate of RANK. -/
theorem recordedCountsAreExact : Obligations.RecordedCountsAreExact := by
  intro s q m t lo hi h hr
  obtain ⟨fTrk, fIst, fTrkB, fIstB⟩ := finishRun_counts hr s q.rki hi t
    (runForward_length_trk s.rom q.a q.rki m lo hi) (runForward_length_ist ..)
  obtain ⟨bTrk, bIst, bTrkB, bIstB⟩ := finishRun_counts hr s q.rki lo t
    (runBackward_length_trk s.rom q.a q.rki m lo hi) (runBackward_length_ist ..)
  obtain ⟨f, hexec, htrk, hcnd⟩ := exec_rank_leaves hr h
  obtain ⟨rTrk, rTrkB⟩ := htrk ▸ candidateRun_trail hr s.rom q.a 76
  exact ⟨_, _, f, exec_rndf h m t hr, fTrk, fIst, fTrkB, fIstB, exec_rndb h m t hr, bTrk, bIst, bTrkB, bIstB,
    hexec, rTrk, rTrkB, ranking_trail hr hcnd⟩

end Sys2Proof.Machine
end

section
/-!
The obligations on the state (spec/10_state.md): what an operation and a step can leave, the invariant and which
register is written by which operation, what the reset sequence checks (spec/70_reset_and_hazards.md), the key
schedule in differential mode (spec/43_key_schedule.md section 1), and the trace flag (R26).
-/

namespace Sys2Proof.Machine

/-! ### What an operation can leave -/

section
variable {s t : State} {q : Request}

theorem withRange_eq_ok {α : Type} {lo hi : Round} {work a : α} :
    withRange lo hi work = .ok a ↔ lo ≤ hi ∧ work = a := by
  rcases lt_or_ge hi lo with h | h
  · simp [h]
  · simp [h]

theorem weight_eq_ok {tr : List ActVec} {n : Nat} : weight tr = .ok n ↔ tr ≠ [] ∧ trailWeight tr = n := by
  by_cases h : tr = [] <;> simp [weight, h]

theorem trailVectors_eq_nil (o : TrailOperand) : trailVectors o = [] ↔ o.n.toNat = 0 := by
  simp [trailVectors]

/-- The state `t` that an operation leaves when it completes on the request `q`: one constructor per operation,
with what the operation asks of its range or of its count (R107 to R110, R121, R131, R146 to R149, R163, R167). The
table of RANK is a variable, so that comparing two states does not sort it. -/
inductive Completes (s : State) (q : Request) : Instr → State → Prop
  | slyr (m : Mode) :
      Completes s q (.slyr m) (answer s { done with r := some (zext64 (sLayer s.rom (low32 q.a) m)) })
  | plyr : Completes s q .plyr (answer s { done with r := some (zext64 (pLayer s.rom (low32 q.a))) })
  | pinv : Completes s q .pinv (answer s { done with r := some (zext64 (pInvLayer s.rom (low32 q.a))) })
  | frnd (m : Mode) (traced : Bool) :
      Completes s q (.frnd m traced) (answer s { done with
        r := some (zext64 (roundF s.rom (low32 q.a) m).1), av := whenTraced traced (roundF s.rom (low32 q.a) m).2 })
  | rrev : Completes s q .rrev (answer s { done with
      r := some (zext64 (revF s.rom (low32 q.a) (high32 q.a)).1), av := some (revF s.rom (low32 q.a) (high32 q.a)).2 })
  | ksch (m : Mode) :
      Completes s q (.ksch m) (answer (holdSchedule s (finalKey s.rom q.key m) (keySchedule s.rom q.key m))
        { done with rko := some (keySchedule s.rom q.key m) })
  | rndf (m : Mode) (traced : Bool) {lo hi : Round} (range : lo ≤ hi) :
      Completes s q (.rndf m traced lo hi) (finishRun s q.rki (runForward s.rom q.a q.rki m lo hi) hi traced)
  | rndb (m : Mode) (traced : Bool) {lo hi : Round} (range : lo ≤ hi) :
      Completes s q (.rndb m traced lo hi) (finishRun s q.rki (runBackward s.rom q.a q.rki m lo hi) lo traced)
  | encb : Completes s q .encb (finishCipher s q.key (keySchedule s.rom q.key .real)
      (runForward s.rom q.a (keySchedule s.rom q.key .real) .real 0 31) 31)
  | decb : Completes s q .decb (finishCipher s q.key (keySchedule s.rom q.key .real)
      (runBackward s.rom q.a (keySchedule s.rom q.key .real) .real 0 31) 0)
  | wght (recorded : 1 ≤ q.tri.n.toNat) (fits : q.tri.n.toNat ≤ 32) :
      Completes s q .wght (answer s { done with wt := some (weightBits (trailWeight (trailVectors q.tri))) })
  | rank {lo hi : Round} {cnd : Vector Candidate 77} (range : lo ≤ hi) (ranked : cnd = ranking s.rom q.a lo hi) :
      Completes s q (.rank lo hi) (finishRank s q.a lo hi cnd)

/-- A work that is served ends in an error that leaves all else alone, or completes on a ready request. -/
theorem serve_next_error_or_completes {C : Request → State → Prop} {work : Request → Except ErrCode State}
    (h : serve s work = .next t) (hC : ∀ q u, work q = .ok u → C q u) :
    (∃ e, t = raiseError s e) ∨ ∃ q, Ready s q ∧ C q t := by
  obtain ⟨q, hq, ⟨e, he, -⟩ | ⟨htf, hok⟩⟩ := serve_next_cases h
  · exact .inl ⟨e, he⟩
  · exact .inr ⟨q, ⟨hq, htf⟩, hC q t hok⟩

/-- Everything an operation can answer as a next state. -/
theorem exec_next_cases {i : Instr} (h : exec i s = .next t) :
    (∃ e, t = raiseError s e) ∨ ∃ q, Ready s q ∧ Completes s q i t := by
  cases i with
  | slyr m =>
    unfold exec execSlyr at h
    exact serve_next_error_or_completes h fun q u hw => by cases hw; exact .slyr m
  | plyr =>
    unfold exec execPlyr at h
    exact serve_next_error_or_completes h fun q u hw => by cases hw; exact .plyr
  | pinv =>
    unfold exec execPinv at h
    exact serve_next_error_or_completes h fun q u hw => by cases hw; exact .pinv
  | frnd m t =>
    unfold exec execFrnd at h
    exact serve_next_error_or_completes h fun q u hw => by cases hw; exact .frnd m t
  | rrev =>
    unfold exec execRrev at h
    exact serve_next_error_or_completes h fun q u hw => by cases hw; exact .rrev
  | ksch m =>
    unfold exec execKsch at h
    exact serve_next_error_or_completes h fun q u hw => by cases hw; exact .ksch m
  | encb =>
    unfold exec execEncb at h
    exact serve_next_error_or_completes h fun q u hw => by cases hw; exact .encb
  | decb =>
    unfold exec execDecb at h
    exact serve_next_error_or_completes h fun q u hw => by cases hw; exact .decb
  | rndf m t lo hi =>
    exact serve_next_error_or_completes h fun q u hw => by
      obtain ⟨hr, rfl⟩ := withRange_eq_ok.mp hw
      exact .rndf m t hr
  | rndb m t lo hi =>
    exact serve_next_error_or_completes h fun q u hw => by
      obtain ⟨hr, rfl⟩ := withRange_eq_ok.mp hw
      exact .rndb m t hr
  | rank lo hi =>
    exact serve_next_error_or_completes h fun q u hw => by
      obtain ⟨hr, rfl⟩ := withRange_eq_ok.mp hw
      exact .rank hr rfl
  | wght =>
    refine serve_next_error_or_completes h fun q u hw => ?_
    dsimp only at hw
    split at hw
    next hn =>
      split at hw
      next n hok =>
        cases hw
        obtain ⟨hne, rfl⟩ := weight_eq_ok.mp hok
        rw [Ne, trailVectors_eq_nil] at hne
        exact .wght (by omega) (by simpa [trailCountLegal] using hn)
      next => cases hw
    next => cases hw

end

/-! ### What a step can do -/

section
variable {s t : State} {q : Request}

/-- A step on a request serves it, whatever its word: a work that completes leaves the tables and `TFAULT` as they
are and hands back a response with code 0 (R180, R181, R203). -/
theorem step_is_served (h : s.req = some q) :
    ∃ work : Request → Except ErrCode State, step s = serve s work
      ∧ ∀ q s', work q = .ok s' →
          s'.rom = s.rom ∧ s'.tfault = s.tfault ∧ s'.req = none ∧ ∃ rsp, s'.rsp = some rsp ∧ rsp.err = 0 := by
  rw [step_of_request h]
  cases decode q.cmd with
  | ok i => exact exec_is_served i s
  | error e => exact ⟨_, rfl, nofun⟩

/-- Everything a step can leave: the state it waits in, an error that leaves all else alone, or the state of an
operation that completes. -/
theorem step_next_cases (h : step s = .next t) :
    t = s ∨ (∃ e, t = raiseError s e) ∨ ∃ q i, Ready s q ∧ decode q.cmd = .ok i ∧ Completes s q i t := by
  obtain ⟨-, hw⟩ | ⟨q, i, hq, hd, hx⟩ | ⟨q, e, -, -, hx⟩ := step_cases s
  · rw [hw] at h
    cases h
    exact .inl rfl
  · obtain he | ⟨q', hr, hc⟩ := exec_next_cases (hx ▸ h)
    · exact .inr (.inl he)
    · obtain rfl : q = q' := Option.some.inj (hq.symm.trans hr.1)
      exact .inr (.inr ⟨q, i, hr, hd, hc⟩)
  · obtain he | ⟨-, -, hf⟩ := serve_next_error_or_completes (C := fun _ _ => False) (hx ▸ h)
      (fun _ _ hw => by cases hw)
    · exact .inr (.inl he)
    · exact hf.elim

end

/-- Settles O9: the operation a word names is served as every other, and so is a word that names none. -/
theorem tableFaultAnswersEveryRequest : Obligations.TableFaultAnswersEveryRequest := by
  intro s q hq htf
  refine ⟨?_, fun i => ?_⟩
  · obtain ⟨work, hstep, -⟩ := step_is_served hq
    rw [hstep, serve_tfault hq htf]
    rfl
  · obtain ⟨work, hexec, -⟩ := exec_is_served i s
    rw [hexec, serve_tfault hq htf]
    rfl

/-- Settles O13: a request that is served ends in an error's code or in a response with code 0. -/
theorem everyRequestIsAnswered : Obligations.EveryRequestIsAnswered := by
  intro s q hq
  obtain ⟨work, hstep, hwork⟩ := step_is_served hq
  obtain ⟨t, ht⟩ := serve_answers hq work
  rw [hstep]
  obtain ⟨q', -, ⟨e, rfl, -⟩ | ⟨-, hok⟩⟩ := serve_next_cases ht
  · exact ⟨_, _, ht, rfl, rfl, errBits_le e⟩
  · obtain ⟨-, -, hreq, rsp, hrsp, herr⟩ := hwork q' t hok
    exact ⟨t, rsp, ht, hreq, hrsp, by simp [herr]⟩

/-- Settles O16: a step waits, takes an error, or completes an operation. -/
theorem tablesNeverChange : Obligations.TablesNeverChange := by
  intro s t h
  obtain rfl | ⟨e, rfl⟩ | ⟨q, i, -, -, hc⟩ := step_next_cases h
  · exact ⟨rfl, rfl⟩
  · exact ⟨raiseError_rom s e, raiseError_tfault s e⟩
  · cases hc <;> exact ⟨rfl, rfl⟩

/-! ### The invariant -/

/-- What the invariant asks of a response: it is legal, and its candidate records keep their bounds (R24, R28). -/
def Response.Sound (rsp : Response) : Prop :=
  rsp.Legal ∧ ∀ cn, rsp.cndo = some cn → ∀ k : Fin 77, cn[k].Bounded

/-- An error's response carries the code alone (R184). -/
theorem responseOf_sound (e : ErrCode) : (responseOf e).Sound :=
  ⟨⟨errBits_le e, fun _ => rfl, nofun, nofun, nofun, nofun⟩, nofun⟩

/-- A completed operation's response without traces. -/
theorem sound_of_no_traces (r : Option Block) (av : Option ActVec) (rko : Option (Vector Word 32))
    {wt : Option WeightBits} {cndo : Option (Vector Candidate 77)} (hwt : ∀ w, wt = some w → w.toNat ≤ 256)
    (hcnd : ∀ cn, cndo = some cn → ∀ k : Fin 77, cn[k].Bounded) :
    Response.Sound ⟨0, r, av, rko, none, none, wt, cndo⟩ :=
  ⟨⟨Nat.zero_le 4, (absurd rfl ·), nofun, nofun, nofun, hwt⟩, hcnd⟩

/-- A run that its records can hold: one vector a round, at least one and at most 32, and two words more (R142). -/
structure Run.Fits (run : Run) : Prop where
  trk_pos : 1 ≤ run.trk.length
  trk_le  : run.trk.length ≤ 32
  ist     : run.ist.length = run.trk.length + 2

section
variable {run : Run} (h : run.Fits)
include h

theorem Run.Fits.trail_bounded : (trailRecord run.trk).Bounded := trailRecord_bounded h.trk_le

theorem Run.Fits.ist_le : run.ist.length ≤ 34 := by
  have := h.trk_le
  have := h.ist
  omega

theorem Run.Fits.trace_bounded : (traceRecord run.ist).Bounded := traceRecord_bounded h.ist_le

/-- The response of a run that fits its records, whether or not they are returned (R146, R147). -/
theorem Run.Fits.response_sound (t : Bool) : (runResponse run t).Sound := by
  cases t with
  | false => exact sound_of_no_traces _ _ _ nofun nofun
  | true =>
    refine ⟨⟨Nat.zero_le 4, (absurd rfl ·), fun tr htr => ?_, fun is his => ?_, fun tr is htr his => ?_, nofun⟩,
      nofun⟩
    · cases htr
      exact ⟨h.trail_bounded, trailRecord_n h.trk_le ▸ h.trk_pos⟩
    · cases his
      exact h.trace_bounded
    · cases htr
      cases his
      rw [trailRecord_n h.trk_le, traceRecord_n h.ist_le, h.ist]

end

theorem runForward_fits (rom : Rom) (b : Block) (rk : Vector Word 32) (m : Mode) {lo hi : Round} (hr : lo ≤ hi) :
    (runForward rom b rk m lo hi).Fits where
  trk_pos := by
    rw [runForward_length_trk]
    have : lo.val ≤ hi.val := hr
    omega
  trk_le := runForward_trk_le ..
  ist := runForward_length_ist ..

theorem runBackward_fits (rom : Rom) (b : Block) (rk : Vector Word 32) (m : Mode) {lo hi : Round} (hr : lo ≤ hi) :
    (runBackward rom b rk m lo hi).Fits where
  trk_pos := by
    rw [runBackward_length_trk]
    have : lo.val ≤ hi.val := hr
    omega
  trk_le := runBackward_trk_le ..
  ist := runBackward_length_ist ..

/-- At most eight S-boxes are active in a round (R93). -/
theorem pop8_le (v : ActVec) : pop8 v ≤ 8 := by
  have h : ∀ n ∈ (List.finRange 8).map fun i => (v.getLsbD i).toNat, n ≤ 1 := by
    simp [Bool.toNat_le]
  simpa [pop8] using List.sum_le_card_nsmul _ 1 h

/-- The weight field of a trail of at most 32 rounds is at most 256 (R28, R161). -/
theorem weightBits_trailWeight_le {tr : List ActVec} (h : tr.length ≤ 32) :
    (weightBits (trailWeight tr)).toNat ≤ 256 := by
  have hw : trailWeight tr ≤ tr.length * 8 := by
    simpa [trailWeight] using List.sum_le_card_nsmul (tr.map pop8) 8 (by simp [pop8_le])
  have : (weightBits (trailWeight tr)).toNat ≤ trailWeight tr := by
    simpa [weightBits] using Nat.mod_le _ _
  omega

theorem length_trailVectors_le (o : TrailOperand) : (trailVectors o).length ≤ 32 := by
  simp [trailVectors]

/-- The record of a candidate keeps its bounds (R24, R165). -/
theorem evaluate_bounded (rom : Rom) (d : Block) (lo hi : Round) (j : Fin 77) :
    (evaluate rom d lo hi j).Bounded := by
  have htrk : (candidateRun rom d lo hi j).trk.length ≤ 32 := runForward_trk_le ..
  refine ⟨?_, trailRecord_bounded htrk, weightBits_trailWeight_le htrk⟩
  simp [evaluate]
  omega

theorem ranking_bounded (rom : Rom) (d : Block) (lo hi : Round) (k : Fin 77) :
    (ranking rom d lo hi)[k].Bounded := by
  obtain ⟨j, hj⟩ := ranking_getElem lo hi d rom k
  exact hj ▸ evaluate_bounded rom d lo hi j

section
variable {s : State} (h : Inv s)
include h

/-! One rule per operation on the state: it keeps the invariant when what it writes keeps its bound. -/

theorem Inv.answer {rsp : Response} (hrsp : rsp.Sound) : Inv (answer s rsp) := by
  obtain ⟨hp, hds, htf, htrk, hist, hj, hcnd, -, -⟩ := h
  refine ⟨hp, hds, htf, htrk, hist, hj, hcnd, fun r hr => ?_, fun r cn hr => ?_⟩
  · cases hr
    exact hrsp.1
  · cases hr
    exact hrsp.2 cn

theorem Inv.raiseError (e : ErrCode) : Inv (raiseError s e) := h.answer (responseOf_sound e)

theorem Inv.holdSchedule (k : Key) (rk : Vector Word 32) : Inv (holdSchedule s k rk) := h

theorem Inv.holdSubkeys (rk : Vector Word 32) : Inv (holdSubkeys s rk) := h

theorem Inv.holdRun (x0 x1 : Word) (last : Round) : Inv (holdRun s x0 x1 last) := h

theorem Inv.holdTrail {trk : Trail} (ht : trk.Bounded) : Inv (holdTrail s trk) := by
  obtain ⟨hp, hds, htf, -, hrest⟩ := h
  exact ⟨hp, hds, htf, ht, hrest⟩

theorem Inv.holdTrace {ist : Trace} (hi : ist.Bounded) : Inv (holdTrace s ist) := by
  obtain ⟨hp, hds, htf, htrk, -, hrest⟩ := h
  exact ⟨hp, hds, htf, htrk, hi, hrest⟩

theorem Inv.holdCandidates {cnd : Vector Candidate 77} (hc : ∀ k : Fin 77, cnd[k].Bounded) :
    Inv (holdCandidates s cnd) := by
  obtain ⟨hp, hds, htf, htrk, hist, -, -, hrest⟩ := h
  exact ⟨hp, hds, htf, htrk, hist, le_refl 76, hc, hrest⟩

theorem Inv.finishRun {run : Run} (hrun : run.Fits) (rki : Vector Word 32) (last : Round) (t : Bool) :
    Inv (finishRun s rki run last t) :=
  ((((h.holdSubkeys rki).holdRun _ _ last).holdTrail hrun.trail_bounded).holdTrace hrun.trace_bounded).answer
    (hrun.response_sound t)

theorem Inv.finishCipher (key : Key) (rk : Vector Word 32) (run : Run) (last : Round) :
    Inv (finishCipher s key rk run last) :=
  ((h.holdSchedule _ rk).holdRun _ _ last).answer (sound_of_no_traces _ _ _ nofun nofun)

theorem Inv.finishRank (d : Block) (lo hi : Round) {cnd : Vector Candidate 77} (hc : ∀ k : Fin 77, cnd[k].Bounded) :
    Inv (finishRank s d lo hi cnd) := by
  have htrk : (trailRecord (candidateRun s.rom d lo hi 76).trk).Bounded := trailRecord_bounded (runForward_trk_le ..)
  exact ((((h.holdSchedule _ _).holdRun _ _ hi).holdTrail htrk).holdCandidates hc).answer
    (sound_of_no_traces _ _ _ nofun fun cn hcn => Option.some.inj hcn ▸ hc)

/-- An operation that completes keeps the invariant. -/
theorem Inv.of_completes {q : Request} {i : Instr} {t : State} (hc : Completes s q i t) : Inv t := by
  cases hc with
  | slyr | plyr | pinv | frnd | rrev => exact h.answer (sound_of_no_traces _ _ _ nofun nofun)
  | ksch m => exact (h.holdSchedule _ _).answer (sound_of_no_traces _ _ _ nofun nofun)
  | rndf m t hr => exact h.finishRun (runForward_fits _ _ _ m hr) _ _ t
  | rndb m t hr => exact h.finishRun (runBackward_fits _ _ _ m hr) _ _ t
  | encb | decb => exact h.finishCipher _ _ _ _
  | wght =>
    have hwt := weightBits_trailWeight_le (length_trailVectors_le q.tri)
    exact h.answer (sound_of_no_traces _ _ _ (fun w hw => Option.some.inj hw ▸ hwt) nofun)
  | rank hr hcnd => exact h.finishRank _ _ _ fun k => hcnd ▸ ranking_bounded ..

end

/-- Settles O21: whether the step waits, takes an error or completes an operation. -/
theorem stepKeepsTheInvariant : Obligations.StepKeepsTheInvariant := by
  intro s t h hstep
  obtain rfl | ⟨e, rfl⟩ | ⟨q, i, -, -, hc⟩ := step_next_cases hstep
  · exact h
  · exact h.raiseError e
  · exact h.of_completes hc

/-! ### Which operation writes which register -/

section
variable (s : State) (rki rk : Vector Word 32) (run : Run) (last lo hi : Round) (t : Bool) (key : Key) (d : Block)
  (cnd : Vector Candidate 77)

@[simp] theorem finishRun_k : (finishRun s rki run last t).k = s.k := rfl
@[simp] theorem finishRun_cnd : (finishRun s rki run last t).cnd = s.cnd := rfl
@[simp] theorem finishRun_j : (finishRun s rki run last t).j = s.j := rfl
@[simp] theorem finishCipher_cnd : (finishCipher s key rk run last).cnd = s.cnd := rfl
@[simp] theorem finishCipher_j : (finishCipher s key rk run last).j = s.j := rfl

end

/-- Settles O50: an error writes none, and each operation writes those the classes name it for. -/
theorem workingRegisterWriters : Obligations.WorkingRegisterWriters := by
  intro i s t h
  obtain ⟨e, rfl⟩ | ⟨q, -, hc⟩ := exec_next_cases h
  · simp
  · cases hc with
    | slyr | plyr | pinv | frnd | rrev | wght => simp
    | ksch => simp [computesSchedule]
    | rndf | rndb => simp [runsTheRounds, recordsTrail, givesCandidates]
    | encb | decb => simp [runsTheRounds, computesSchedule]
    | rank => simp [runsTheRounds, computesSchedule, recordsTrail, givesCandidates]

/-! ### What the reset sequence leaves -/

/-- A list of 16 nibbles sorts to 0, 1, ..., 15 exactly when no nibble stands in it twice: it then holds each once. -/
theorem insertionSort_eq_range_iff_nodup {l : List Nibble} (hl : l.length = 16) :
    (l.map BitVec.toNat).insertionSort (· ≤ ·) = List.range 16 ↔ l.Nodup := by
  have hlen : (l.map BitVec.toNat).length = 16 := by simp [hl]
  rw [← List.nodup_map_iff (f := BitVec.toNat) fun _ _ => BitVec.eq_of_toNat_eq]
  constructor
  · intro h
    have hperm := List.perm_insertionSort (· ≤ ·) (l.map BitVec.toNat)
    exact (h ▸ hperm).nodup_iff.mp List.nodup_range
  · intro h
    have hsub : l.map BitVec.toNat ⊆ List.range 16 := by
      intro n hn
      obtain ⟨x, -, rfl⟩ := List.mem_map.mp hn
      exact List.mem_range.mpr x.isLt
    have hperm : (l.map BitVec.toNat).Perm (List.range 16) := (h.subperm hsub).perm_of_length_le (by simp [hlen])
    exact ((List.perm_insertionSort _ _).trans hperm).eq_of_sortedLE List.sortedLE_insertionSort
      List.pairwise_le_range.sortedLE

/-- A table of 16 nibbles is onto as soon as no nibble stands in it twice. -/
theorem bijectiveTable_iff_nodup (t : SBox) : BijectiveTable t ↔ t.toList.Nodup := by
  have hlist : t.toList = List.ofFn fun x : Fin 16 => t[x] :=
    (congrArg Vector.toList Vector.ofFn_getElem.symm).trans Vector.toList_ofFn
  rw [hlist, List.nodup_ofFn]
  refine ⟨fun h => h.1, fun h => ⟨h, fun y => ?_⟩⟩
  have hfin : Function.Injective fun x : Fin 16 => t[x].toFin := fun x x' hx => h (BitVec.eq_of_toFin_eq hx)
  obtain ⟨x, hx⟩ := Finite.surjective_of_injective hfin y.toFin
  exact ⟨x, BitVec.eq_of_toFin_eq hx⟩

/-- The source's test passes exactly the bijections (R13, R200). -/
theorem sboxBijective_iff (t : SBox) : sboxBijective t = true ↔ BijectiveTable t := by
  rw [bijectiveTable_iff_nodup, sboxBijective, beq_iff_eq, insertionSort_eq_range_iff_nodup (by simp)]

theorem tableFault_eq_false_iff (s : Vector SBox 10) :
    tableFault s = false ↔ ∀ t : Fin 10, BijectiveTable s[t] := by
  simp [tableFault, sboxBijective_iff, Fin.forall_iff]

/-- The precondition of the parameter: `P` takes no position twice (U4). -/
theorem tables_p_injective (tb : Config.Tables) : Function.Injective fun i : Lane => tb.p[i] := by
  intro i j h
  have := (tb.perm.getElem_inj_iff (i := i) (j := j) (hi := by simp) (hj := by simp)).mp (by simpa using h)
  exact Fin.ext this

/-- Once the loop has passed `i`, entry `P[i]` of the array it fills is `i`: no later round writes it again. -/
theorem foldl_set_getElem {p : Vector Lane 8} (hp : Function.Injective fun i : Lane => p[i]) (i : Lane)
    (l : List Lane) (v : Vector Lane 8) (h : i ∈ l ∨ v[p[i]] = i) :
    (l.foldl (fun pinv j => pinv.set p[j].val j) v)[p[i]] = i := by
  induction l generalizing v with
  | nil => simpa using h
  | cons j rest ih =>
    refine ih _ ?_
    by_cases hij : j = i
    · exact .inr (by simp [hij])
    · have hne : p[j].val ≠ p[i].val := fun he => hij (hp (Fin.ext he))
      obtain hmem | hv := h
      · exact .inl ((List.mem_cons.mp hmem).resolve_left (Ne.symm hij))
      · exact .inr ((Vector.getElem_set_ne _ _ hne).trans hv)

/-- `PINV` after reset is the inverse of `P` both ways (R16). -/
theorem romOf_inversePermutations (tb : Config.Tables) : InversePermutations (romOf tb) := by
  have hinv : ∀ i : Lane, (invertP tb.p)[tb.p[i]] = i := fun i =>
    foldl_set_getElem (tables_p_injective tb) i _ _ (.inl (List.mem_finRange i))
  intro i
  refine ⟨hinv i, ?_⟩
  obtain ⟨j, rfl⟩ := Finite.surjective_of_injective (tables_p_injective tb) i
  exact congrArg (fun k : Lane => tb.p[k]) (hinv j)

/-- The differential table is the saturating one (R15). -/
theorem romOf_saturatingTable (tb : Config.Tables) : SaturatingTable (romOf tb) := by
  intro x
  have : x.toFin = 0 ↔ x = 0 := BitVec.toFin_inj (y := 0)
  simp [romOf, diffTable, this]

/-- Settles O18: the table the reset sequence leaves is the saturating one. -/
theorem resetDifferentialTable : Obligations.ResetDifferentialTable := romOf_saturatingTable

/-- Settles O17: the check passes bijections only, the loop inverts `P`, and the default tables are evaluated. -/
theorem resetChecksTheTables : Obligations.ResetChecksTheTables :=
  ⟨fun tb => ⟨tableFault_eq_false_iff tb.sbox, romOf_inversePermutations tb, rfl, rfl⟩, by decide, by decide⟩

theorem blankCandidate_bounded : blankCandidate.Bounded := ⟨by decide, noTrail_bounded, by decide⟩

/-- Settles O20, from the check of the tables and the empty records of reset. -/
theorem resetMeetsTheInvariant : Obligations.ResetMeetsTheInvariant := by
  intro tb
  refine ⟨romOf_inversePermutations tb, romOf_saturatingTable tb, tableFault_eq_false_iff tb.sbox, noTrail_bounded,
    noTrace_bounded, Nat.zero_le 76, fun k => ?_, nofun, nofun⟩
  have : (State.resetWith tb).cnd[k] = blankCandidate := by simp [State.resetWith]
  exact this ▸ blankCandidate_bounded

/-! ### The key schedule in differential mode -/

theorem bitsBelow_iff {w : Nat} {a b : BitVec w} :
    bitsBelow a b ↔ ∀ i, a.getLsbD i = true → b.getLsbD i = true := by
  constructor
  · intro h i hi
    rw [← show a &&& b = a from h, BitVec.getLsbD_and, Bool.and_eq_true] at hi
    exact hi.2
  · intro h
    refine BitVec.eq_of_getLsbD_eq fun i _ => ?_
    rw [BitVec.getLsbD_and]
    cases ha : a.getLsbD i with
    | false => rfl
    | true => rw [h i ha]; rfl

theorem setBits_le_of_bitsBelow {w : Nat} {a b : BitVec w} (h : bitsBelow a b) : setBits a ≤ setBits b :=
  List.countP_mono_left fun i _ => bitsBelow_iff.mp h i

/-- A rotation of the positions below `w` reaches each of them once. -/
theorem map_add_mod_range_perm (w c : Nat) : ((List.range w).map fun i => (i + c) % w).Perm (List.range w) := by
  have : ((List.range w).map fun i => (i + c) % w) = (List.range w).rotate c :=
    List.ext_getElem (by simp) fun i _ _ => by simp [List.getElem_rotate]
  exact this ▸ List.rotate_perm _ c

/-- A rotation keeps the number of set bits. -/
theorem setBits_rotL {w : Nat} (x : BitVec w) (a : Nat) : setBits (rotL x.toNat a w : BitVec w) = setBits x := by
  have hbit : ∀ i ∈ List.range w,
      (rotL x.toNat a w : BitVec w).getLsbD i = (x.getLsbD ∘ fun i => (i + (w - a % w)) % w) i := by
    intro i hi
    exact rotL_getLsbD _ _ _ (List.mem_range.mp hi)
  calc setBits (rotL x.toNat a w : BitVec w)
      = (List.range w).countP (x.getLsbD ∘ fun i => (i + (w - a % w)) % w) :=
        List.countP_congr fun i hi => by rw [hbit i hi]
    _ = ((List.range w).map fun i => (i + (w - a % w)) % w).countP x.getLsbD := List.countP_map.symm
    _ = setBits x := (map_add_mod_range_perm w _).countP_eq _

/-- A nibble as the saturating table gives it (R15). -/
def saturate (x : Nibble) : Nibble := if x = 0 then 0 else 0xF

theorem bitsBelow_saturate (x : Nibble) : bitsBelow x (saturate x) := by
  revert x
  unfold bitsBelow
  decide

theorem saturate_mono {x y : Nibble} (h : bitsBelow x y) : bitsBelow (saturate x) (saturate y) := by
  revert x y
  unfold bitsBelow
  decide

theorem bitsBelow.extract {w : Nat} {a b : BitVec w} (h : bitsBelow a b) (start len : Nat) :
    bitsBelow (a.extractLsb' start len) (b.extractLsb' start len) := by
  rw [bitsBelow, ← BitVec.extractLsb'_and, show a &&& b = a from h]

theorem bitsBelow.rotL {w : Nat} {x y : BitVec w} (h : bitsBelow x y) (a : Nat) :
    bitsBelow (rotL x.toNat a w : BitVec w) (rotL y.toNat a w) := by
  rw [bitsBelow_iff] at h ⊢
  intro i hi
  have hw : i < w := BitVec.lt_of_getLsbD hi
  rw [rotL_getLsbD _ _ _ hw] at hi ⊢
  exact h _ hi

/-- Keys compare nibble by nibble. -/
theorem bitsBelow_of_nib {a b : Key} (h : ∀ j < 20, bitsBelow (nib a j) (nib b j)) : bitsBelow a b := by
  rw [bitsBelow_iff]
  intro i hi
  have hi80 : i < 80 := BitVec.lt_of_getLsbD hi
  have hm : i % 4 < 4 := by omega
  have hj := bitsBelow_iff.mp (h (i / 4) (by omega)) (i % 4)
  rw [nib_getLsbD _ _ _ hm, nib_getLsbD _ _ _ hm, Nat.div_add_mod] at hj
  exact hj hi

section
variable {rom : Rom} (h : SaturatingTable rom)
include h

theorem sub_diff_eq_saturate (t : Fin 10) (x : Nibble) : sub rom t x .diff = saturate x := sub_diff h t x

/-- In differential mode an update rotates the key state and saturates the two top nibbles (R129). -/
theorem nib_ksUpdate_diff (k : Key) (r : Nat) {j : Nat} (hj : j < 20) :
    nib (ksUpdate rom k r .diff) j
      = if j < 18 then nib (rotL k.toNat 29 80 : Key) j else saturate (nib (rotL k.toNat 29 80 : Key) j) := by
  simp only [ksUpdate, injectCounter, sub_diff_eq_saturate h, nib]
  split
  · rw [BitVec.extractLsb'_append_eq_of_add_le (by omega), BitVec.extractLsb'_extractLsb'_of_le (by omega)]
  · rw [BitVec.extractLsb'_append_eq_of_le (by omega)]
    obtain rfl | rfl : j = 18 ∨ j = 19 := by omega
    · exact (BitVec.extractLsb'_append_eq_of_add_le (le_refl 4)).trans BitVec.extractLsb'_eq_self
    · exact (BitVec.extractLsb'_append_eq_of_le (le_refl 4)).trans BitVec.extractLsb'_eq_self

/-- A bit that the rotation brings stays set in the update. -/
theorem bitsBelow_ksUpdate_diff (k : Key) (r : Nat) :
    bitsBelow (rotL k.toNat 29 80 : Key) (ksUpdate rom k r .diff) := by
  refine bitsBelow_of_nib fun j hj => ?_
  rw [nib_ksUpdate_diff h k r hj]
  split
  · exact BitVec.and_self
  · exact bitsBelow_saturate _

/-- An update keeps the order of keys: the rotation moves bits alone, and saturation is monotone. -/
theorem ksUpdate_diff_mono {k k' : Key} (hk : bitsBelow k k') (r : Nat) :
    bitsBelow (ksUpdate rom k r .diff) (ksUpdate rom k' r .diff) := by
  refine bitsBelow_of_nib fun j hj => ?_
  have hrot := (hk.rotL 29).extract (4 * j) 4
  rw [nib_ksUpdate_diff h k r hj, nib_ksUpdate_diff h k' r hj]
  split
  · exact hrot
  · exact saturate_mono hrot

theorem keyState_diff_mono {k k' : Key} (hk : bitsBelow k k') (r : Nat) :
    bitsBelow (keyState rom k .diff r) (keyState rom k' .diff r) := by
  induction r with
  | zero => exact hk
  | succ r ih => exact ksUpdate_diff_mono h ih (r + 1)

theorem ksUpdate_diff_zero (r : Nat) : ksUpdate rom 0 r .diff = 0 := by
  have hrot : (rotL 0 29 80 : Key) = 0 := by decide
  simp [ksUpdate, injectCounter, sub_diff h, hrot]

theorem keyState_diff_zero (r : Nat) : keyState rom 0 .diff r = 0 := by
  induction r with
  | zero => rfl
  | succ r ih => rw [keyState, ih, ksUpdate_diff_zero h]

theorem setBits_keyState_diff_le (k : Key) (r : Nat) :
    setBits (keyState rom k .diff r) ≤ setBits (keyState rom k .diff (r + 1)) :=
  calc setBits (keyState rom k .diff r) = setBits (rotL (keyState rom k .diff r).toNat 29 80 : Key) :=
        (setBits_rotL _ 29).symm
    _ ≤ setBits (keyState rom k .diff (r + 1)) := setBits_le_of_bitsBelow (bitsBelow_ksUpdate_diff h _ _)

end

@[simp] theorem keySchedule_getElem (rom : Rom) (key : Key) (m : Mode) (r : Round) :
    (keySchedule rom key m)[r] = subkeyOf (keyState rom key m r) := by
  simp [keySchedule]

/-- Settles O34: an update is a rotation, which keeps the number of set bits and the order of keys, followed by a
saturation of two nibbles, which clears no bit and keeps the order too. -/
theorem differentialScheduleLaws : Obligations.DifferentialScheduleLaws := by
  intro rom h
  refine ⟨fun k r => ⟨rfl, fun i hi => ?_⟩, fun r => ?_, setBits_keyState_diff_le h, fun k k' r hk => ?_⟩
  · rw [nib_ksUpdate_diff h k r (by omega), if_neg (by omega), rotL_eq_rotateLeft k 29 (by decide)]
    rfl
  · rw [keySchedule_getElem, keyState_diff_zero h]
    rfl
  · simp only [keySchedule_getElem]
    exact (keyState_diff_mono h hk r).extract 48 32

/-! ### The trace flag -/

/-- Settles O43, by the responses of the three operations with either flag. -/
theorem traceFlagOnlyAddsTheTraces : Obligations.TraceFlagOnlyAddsTheTraces := by
  intro s q m lo hi h hr
  exact ⟨_, _, _, congrArg responseIn (exec_frnd h m true), rfl, congrArg responseIn (exec_frnd h m false),
    congrArg responseIn (exec_rndf h m true hr), rfl, rfl, congrArg responseIn (exec_rndf h m false hr),
    congrArg responseIn (exec_rndb h m true hr), rfl, rfl, congrArg responseIn (exec_rndb h m false hr)⟩

end Sys2Proof.Machine
end

section
/-!
The obligations on how a request is taken and answered (spec/20_memory.md rule R55): the step runs what the word
decodes to, and a request presented again after its answer is answered the same.
-/

namespace Sys2Proof.Machine

/-- Settles O6: with a request presented, the step goes by what its word decodes to. -/
theorem stepRunsTheDecodedInstruction : Obligations.StepRunsTheDecodedInstruction := by
  intro s q i hq hd
  rw [step_of_request hq, hd]

/-- A block with no request pending takes the one presented (R203). -/
theorem present_of_idle {t : State} (h : t.req = none) (q : Request) : present q t = some (ask t q) := by
  rw [present, h]
  rfl

/-- Settles O15: the answer leaves the block idle with its tables and `TFAULT` as they were, so that the state with
the request presented again agrees with the first in all that a response depends on. -/
theorem repeatedRequestSameResponse : Obligations.RepeatedRequestSameResponse := by
  intro s t q hq hstep
  obtain ⟨t', rsp, hanswer, hidle, hrsp, -⟩ := everyRequestIsAnswered s q hq
  obtain rfl : t = t' := Host.Outcome.next.inj (hstep.symm.trans hanswer)
  obtain ⟨hrom, htf⟩ := tablesNeverChange s t hstep
  have hagree : AgreeOnInputs (ask t q) s q := ⟨hrom, htf, rfl, hq⟩
  refine ⟨ask t q, present_of_idle hidle q, ?_, by simp [hrsp]⟩
  rw [hagree.responseIn_step_eq, hstep]
  rfl

end Sys2Proof.Machine
end

section
/-!
The obligations on the decoder and the encoder (spec/30_encoding.md rules R65 to R71). They turn on two facts: a word
is its five fields, and the decoder accepts a word exactly when its fields are legal, as the operation that has them.
-/

namespace Sys2Proof.Machine

/-! ### A word is its five fields -/

theorem toNat_append_eq_add {v w : Nat} (x : BitVec v) (y : BitVec w) :
    (x ++ y).toNat = x.toNat * 2 ^ w + y.toNat := by
  rw [BitVec.toNat_append, ← Nat.shiftLeft_add_eq_or_of_lt y.isLt, Nat.shiftLeft_eq]

/-- The value of a word by its fields (R65). -/
theorem toNat_wordOfFields (f : Fields) :
    (wordOfFields f).toNat
      = f.op.toNat * 2 ^ 12 + f.m.toNat * 2 ^ 11 + f.t.toNat * 2 ^ 10 + f.minr.toNat * 2 ^ 5 + f.maxr.toNat := by
  rw [wordOfFields, toNat_append_eq_add, toNat_append_eq_add, toNat_append_eq_add, toNat_append_eq_add]
  omega

@[simp] theorem fieldsOfWord_wordOfFields (f : Fields) : fieldsOfWord (wordOfFields f) = f := by
  have hw := toNat_wordOfFields f
  obtain ⟨op, m, t, lo, hi⟩ := f
  have := op.isLt; have := m.isLt; have := t.isLt; have := lo.isLt; have := hi.isLt
  dsimp only at hw
  rw [fieldsOfWord, Fields.mk.injEq]
  refine ⟨?_, ?_, ?_, ?_, ?_⟩ <;>
    (apply BitVec.eq_of_toNat_eq; rw [BitVec.extractLsb'_toNat, Nat.shiftRight_eq_div_pow, hw]; omega)

@[simp] theorem wordOfFields_fieldsOfWord (w : CmdWord) : wordOfFields (fieldsOfWord w) = w := by
  apply BitVec.eq_of_toNat_eq
  have := w.isLt
  simp only [toNat_wordOfFields, fieldsOfWord, BitVec.extractLsb'_toNat, Nat.shiftRight_eq_div_pow]
  omega

theorem fieldsOfWord_injective : Function.Injective fieldsOfWord :=
  Function.LeftInverse.injective wordOfFields_fieldsOfWord

@[simp] theorem fieldsOfWord_encode (i : Instr) : fieldsOfWord (encode i) = fieldsOf i :=
  fieldsOfWord_wordOfFields _

/-- A mask works on each field by itself. -/
theorem fieldsOfWord_and (v w : CmdWord) :
    fieldsOfWord (v &&& w)
      = ⟨(fieldsOfWord v).op &&& (fieldsOfWord w).op, (fieldsOfWord v).m &&& (fieldsOfWord w).m,
        (fieldsOfWord v).t &&& (fieldsOfWord w).t, (fieldsOfWord v).minr &&& (fieldsOfWord w).minr,
        (fieldsOfWord v).maxr &&& (fieldsOfWord w).maxr⟩ := by
  simp [fieldsOfWord, BitVec.extractLsb'_and]

/-! ### The values of the fields -/

/-- One bit of a word, cut out as a field. -/
theorem extractLsb'_one {w : Nat} (x : BitVec w) (n : Nat) : x.extractLsb' n 1 = BitVec.ofBool (x.getLsbD n) := by
  ext i hi
  obtain rfl : i = 0 := by omega
  simp

/-- `.D` is `M = 1` (R73). -/
@[simp] theorem modeBit_suffixMode (d : Bool) : modeBit (suffixMode d) = BitVec.ofBool d := by
  cases d <;> rfl

@[simp] theorem modeBit_modeOf (w : CmdWord) : modeBit (modeOf w) = (fieldsOfWord w).m :=
  (modeBit_suffixMode _).trans (extractLsb'_one w 11).symm

@[simp] theorem traceBit_traceOf (w : CmdWord) : traceBit (traceOf w) = (fieldsOfWord w).t :=
  (extractLsb'_one w 10).symm

@[simp] theorem roundField_minrOf (w : CmdWord) : roundField (minrOf w) = (fieldsOfWord w).minr := rfl
@[simp] theorem roundField_maxrOf (w : CmdWord) : roundField (maxrOf w) = (fieldsOfWord w).maxr := rfl

theorem modeBit_injective : Function.Injective modeBit := by
  intro m m' h
  cases m <;> cases m' <;> simp_all [modeBit]

theorem traceBit_injective : Function.Injective traceBit := by
  unfold Function.Injective
  decide

theorem roundField_injective : Function.Injective roundField := fun _ _ h => congrArg BitVec.toFin h

/-- An operation is given by the fields of its word: two constructors differ in `OP`, and what one constructor holds is
read back from its fields. -/
theorem fieldsOf_injective : Function.Injective fieldsOf := by
  intro i j h
  cases i <;> cases j <;>
    simp_all [fieldsOf, modeBit_injective.eq_iff, traceBit_injective.eq_iff, roundField_injective.eq_iff]

/-! ### The decoder accepts the words with legal fields -/

/-- The fields with those that an operation does not use set to 0 (R66). -/
def usedFields (op : BitVec 4) (f : Fields) : Fields where
  op   := op
  m    := if usesMode op then f.m else 0
  t    := if usesTrace op then f.t else 0
  minr := if usesRange op then f.minr else 0
  maxr := if usesRange op then f.maxr else 0

/-- The column `mask` of an operation by fields: all bits of `OP`, and of each field it does not use (R66). -/
def maskFields (op : BitVec 4) : Fields where
  op   := BitVec.allOnes 4
  m    := if usesMode op then 0 else BitVec.allOnes 1
  t    := if usesTrace op then 0 else BitVec.allOnes 1
  minr := if usesRange op then 0 else BitVec.allOnes 5
  maxr := if usesRange op then 0 else BitVec.allOnes 5

/-- The column `match` of an operation by fields: `OP` alone (R66). -/
def matchFields (op : BitVec 4) : Fields := ⟨op, 0, 0, 0, 0⟩

/-- A field that is 0 unless it is used. -/
theorem used_or_eq_zero_iff {n : Nat} (used : Bool) (x : BitVec n) :
    (used = true ∨ x = 0) ↔ (if used then x else 0) = x := by
  cases used with
  | false => simp [eq_comm (a := x)]
  | true => simp

/-- The mask of a field, all ones unless it is used, says the same. -/
theorem masked_eq_zero_iff {n : Nat} (used : Bool) (x : BitVec n) :
    (x &&& if used then 0 else BitVec.allOnes n) = 0 ↔ (if used then x else 0) = x := by
  cases used with
  | false => simp [eq_comm (a := x)]
  | true => simp

/-- Fields are legal when `OP` names an operation and no field that it does not use is set (R71). -/
theorem wf_iff_usedFields_eq {f : Fields} : f.wf = true ↔ opLegal f.op = true ∧ usedFields f.op f = f := by
  obtain ⟨op, m, t, lo, hi⟩ := f
  simp only [Fields.wf, usedFields, Fields.mk.injEq, ← used_or_eq_zero_iff, Bool.and_eq_true, Bool.or_eq_true,
    beq_iff_eq, and_assoc, or_and_left, true_and]

/-- A word matches the row of its `OP` exactly when it sets no field that `OP` does not use (R71 (b)). -/
theorem and_mask_eq_iff {w mask pattern : CmdWord} (hmask : fieldsOfWord mask = maskFields (fieldsOfWord w).op)
    (hpattern : fieldsOfWord pattern = matchFields (fieldsOfWord w).op) :
    w &&& mask = pattern ↔ usedFields (fieldsOfWord w).op (fieldsOfWord w) = fieldsOfWord w := by
  rw [← fieldsOfWord_injective.eq_iff, fieldsOfWord_and, hmask, hpattern]
  obtain ⟨op, m, t, lo, hi⟩ := fieldsOfWord w
  simp only [usedFields, maskFields, matchFields, Fields.mk.injEq, masked_eq_zero_iff, BitVec.and_allOnes]

/-- What a decoded word must be: the operation has the fields of the word, or the fields are illegal (R70, R71). -/
def DecodedAs (w : CmdWord) : Except DecodeReject Instr → Prop
  | .ok i => fieldsOf i = fieldsOfWord w
  | .error _ => (fieldsOfWord w).wf = false

/-- One row of the map, on a word with its `OP` and an operation read from the fields that `OP` uses. -/
theorem row_decodedAs {w mask pattern : CmdWord} {i : Instr} (op : BitVec 4)
    (hop : (fieldsOfWord w).op.toNat = op.toNat) (hmask : fieldsOfWord mask = maskFields op)
    (hpattern : fieldsOfWord pattern = matchFields op) (hi : fieldsOf i = usedFields op (fieldsOfWord w)) :
    DecodedAs w (row mask pattern w i) := by
  obtain rfl := BitVec.eq_of_toNat_eq hop
  have hmatch := and_mask_eq_iff hmask hpattern
  rw [row]
  split
  next h => exact hi.trans (hmatch.mp h)
  next h => exact Bool.eq_false_iff.mpr fun hwf => h (hmatch.mpr (wf_iff_usedFields_eq.mp hwf).2)

/-- The decoder, row by row. -/
theorem decode_decodedAs (w : CmdWord) : DecodedAs w (decode w) := by
  unfold decode
  split
  next h => exact row_decodedAs 0x1 h rfl rfl (by rw [fieldsOf, modeBit_modeOf]; rfl)
  next h => exact row_decodedAs 0x2 h rfl rfl rfl
  next h => exact row_decodedAs 0x3 h rfl rfl rfl
  next h => exact row_decodedAs 0x4 h rfl rfl (by rw [fieldsOf, modeBit_modeOf, traceBit_traceOf]; rfl)
  next h => exact row_decodedAs 0x5 h rfl rfl rfl
  next h => exact row_decodedAs 0x6 h rfl rfl (by rw [fieldsOf, modeBit_modeOf]; rfl)
  next h => exact row_decodedAs 0x7 h rfl rfl (by rw [fieldsOf, modeBit_modeOf, traceBit_traceOf]; rfl)
  next h => exact row_decodedAs 0x8 h rfl rfl (by rw [fieldsOf, modeBit_modeOf, traceBit_traceOf]; rfl)
  next h => exact row_decodedAs 0x9 h rfl rfl rfl
  next h => exact row_decodedAs 0xA h rfl rfl rfl
  next h => exact row_decodedAs 0xB h rfl rfl rfl
  next h => exact row_decodedAs 0xC h rfl rfl rfl
  next =>
    have hop : opLegal (fieldsOfWord w).op = false := by
      have hlt := (fieldsOfWord w).op.isLt
      rw [opLegal, Bool.and_eq_false_iff, decide_eq_false_iff_not, decide_eq_false_iff_not]
      simp only [fieldsOfWord, imp_false] at * -- the rows passed over, as inequalities for omega
      omega
    simp [DecodedAs, Fields.wf, hop]

/-- Each operation's fields are legal (R66, R71). -/
theorem fieldsOf_wf (i : Instr) : (fieldsOf i).wf = true := by
  cases i with
  | slyr m => exact Laws.LegalFields.slyr m
  | plyr => exact Laws.LegalFields.plyr
  | pinv => exact Laws.LegalFields.pinv
  | frnd m t => exact Laws.LegalFields.frnd m t
  | rrev => exact Laws.LegalFields.rrev
  | ksch m => exact Laws.LegalFields.ksch m
  | rndf m t lo hi => exact Laws.LegalFields.rndf m t lo hi
  | rndb m t lo hi => exact Laws.LegalFields.rndb m t lo hi
  | encb => exact Laws.LegalFields.encb
  | decb => exact Laws.LegalFields.decb
  | wght => exact Laws.LegalFields.wght
  | rank lo hi => exact Laws.LegalFields.rank lo hi

/-- The decoder accepts a word as the operation that has its fields, and as no other (R70). -/
theorem decode_eq_ok_iff {w : CmdWord} {i : Instr} : decode w = .ok i ↔ fieldsOf i = fieldsOfWord w := by
  have hd := decode_decodedAs w
  constructor
  · intro h
    rwa [h] at hd
  · intro h
    cases hw : decode w with
    | ok j =>
      rw [hw] at hd
      rw [fieldsOf_injective (h.trans hd.symm)]
    | error e =>
      rw [hw, DecodedAs, ← h, fieldsOf_wf] at hd
      cases hd

theorem decode_encode (i : Instr) : decode (encode i) = .ok i :=
  decode_eq_ok_iff.mpr (fieldsOfWord_encode i).symm

/-- Settles O1: the decoder reads the fields that the encoder has put side by side. -/
theorem decodeOfEncodeIsTheInstruction : Obligations.DecodeOfEncodeIsTheInstruction :=
  fun i _ => decode_encode i

/-- Settles O2: the operation has the fields of the word, and a word is its fields. -/
theorem encodeOfDecodedIsTheWord : Obligations.EncodeOfDecodedIsTheWord := by
  intro w i h
  rw [encode, decode_eq_ok_iff.mp h, wordOfFields_fieldsOfWord]

/-- Settles O4: each word is that of the operation it stands for. -/
theorem listedWordsDecode : Obligations.ListedWordsDecode :=
  ⟨decode_encode (.slyr .diff), decode_encode .plyr, decode_encode .pinv, decode_encode (.frnd .real true),
    decode_encode .rrev, decode_encode (.ksch .diff), decode_encode (.rndf .real false 16 31),
    decode_encode (.rndb .diff true 0 5), decode_encode .encb, decode_encode .decb, decode_encode .wght,
    decode_encode (.rank 12 15)⟩

end Sys2Proof.Machine
end

section
/-!
The obligation on the assembler (spec/30_encoding.md rules R73, R74).
-/

namespace Sys2Proof.Machine

/-- The fields that a line writes: its suffixes, and its range, 0,31 where an operation that uses one has none (R73,
R74). -/
def writtenFields (l : AsmLine) : Fields where
  op   := asmOp l.name
  m    := BitVec.ofBool l.d
  t    := BitVec.ofBool l.t
  minr := if usesRange (asmOp l.name) then roundField (writtenRange l.range).1 else 0
  maxr := if usesRange (asmOp l.name) then roundField (writtenRange l.range).2 else 0

/-- What a line must stand for: an operation with the fields written, none of them unused, or nothing (R73). -/
def AssembledAs (l : AsmLine) : Option Instr → Prop
  | some i => writesUnusedField l = false ∧ fieldsOf i = writtenFields l
  | none => writesUnusedField l = true

/-- The assembler, pattern by pattern: a line that it accepts has suffixes and a range only where the operation uses
them, and a line that no pattern accepts writes one where it does not. -/
theorem assemble_assembledAs (l : AsmLine) : AssembledAs l (assemble l) := by
  obtain ⟨name, d, t, range⟩ := l
  dsimp only [assemble]
  split
  case h_15 => -- no pattern accepts the line
    cases name <;>
      simp_all [AssembledAs, writesUnusedField, asmOp, usesMode, usesTrace, usesRange, or_iff_not_imp_left,
        Option.ne_none_iff_isSome]
  all_goals
    simp [AssembledAs, writesUnusedField, asmOp, usesMode, usesTrace, usesRange, fieldsOf, writtenFields, traceBit]

theorem assemble_eq_none_iff {l : AsmLine} : assemble l = none ↔ writesUnusedField l = true := by
  have ha := assemble_assembledAs l
  cases hl : assemble l with
  | none => simpa [hl, AssembledAs] using ha
  | some i =>
    rw [hl] at ha
    simp [ha.1]

/-- The word of the fields that a line writes is the one R73 computes. -/
theorem toNat_writtenFields {l : AsmLine} (h : writesUnusedField l = false) :
    (wordOfFields (writtenFields l)).toNat = writtenWord l := by
  obtain ⟨name, d, t, range⟩ := l
  rw [toNat_wordOfFields]
  cases range with
  | none => cases hr : usesRange (asmOp name) <;> simp [writtenFields, writtenWord, writtenRange, roundField, hr]
  | some rng =>
    have hr : usesRange (asmOp name) = true := by
      simp_all [writesUnusedField]
    simp [writtenFields, writtenWord, writtenRange, roundField, hr]

theorem toNat_encode_of_assemble {l : AsmLine} {i : Instr} (h : assemble l = some i) :
    (encode i).toNat = writtenWord l := by
  have ha := assemble_assembledAs l
  rw [h] at ha
  obtain ⟨hunused, hfields⟩ := ha
  rw [encode, hfields, toNat_writtenFields hunused]

/-- Settles O5: a line writes the fields of the operation it stands for, so its word is the one that its fields give;
the written examples are evaluated. -/
theorem assemblerNotation : Obligations.AssemblerNotation := by
  refine ⟨fun l => assemble_eq_none_iff, fun l i h => ?_, fun l => ?_, fun d t => ⟨rfl, rfl⟩, rfl, rfl, rfl, by decide,
    by decide, by decide, rfl, rfl, rfl⟩
  · have hword := toNat_encode_of_assemble h
    refine ⟨hword, ?_⟩
    rw [← hword, BitVec.ofNat_toNat, BitVec.setWidth_eq, decode_encode]
  · cases hl : assemble l with
    | none => simp [assembleWord, hl, assemble_eq_none_iff.mp hl]
    | some i =>
      have hused : ¬ writesUnusedField l = true := by simp [← assemble_eq_none_iff, hl]
      simp [assembleWord, hl, hused, toNat_encode_of_assemble hl]

end Sys2Proof.Machine
end

section
/-!
The obligations on illegal requests (spec/30_encoding.md rule R71, spec/60_exceptions.md rule R181) and on ENCB and
DECB as compositions (rule R74): which error an operation ends in, said once for every operation.
-/

namespace Sys2Proof.Machine

/-! ### The error an operation ends in -/

/-- The error of a range-bounded operation (R178). -/
def rangeError (lo hi : Round) : ErrCode := if hi < lo then .invalidRange else .ok

/-- The error of WGHT, by the count of its operand (R71 (c), R163). -/
def countError (n : Nat) : ErrCode := if 32 < n then .illegalCommand else if n = 0 then .emptyTrail else .ok

/-- The error that an operation ends in on a request, or completion. -/
def operationError (q : Request) : Instr → ErrCode
  | .rndf _ _ lo hi | .rndb _ _ lo hi | .rank lo hi => rangeError lo hi
  | .wght => countError q.tri.n.toNat
  | .slyr _ | .plyr | .pinv | .frnd _ _ | .rrev | .ksch _ | .encb | .decb => .ok

theorem rangeError_cases (lo hi : Round) :
    (hi < lo ∧ rangeError lo hi = .invalidRange) ∨ (lo ≤ hi ∧ rangeError lo hi = .ok) := by
  rcases lt_or_ge hi lo with h | h
  · exact .inl ⟨h, if_pos h⟩
  · exact .inr ⟨h, if_neg h.not_gt⟩

theorem le_of_rangeError_eq_ok {lo hi : Round} (h : rangeError lo hi = .ok) : lo ≤ hi := by
  obtain ⟨-, he⟩ | ⟨hr, -⟩ := rangeError_cases lo hi
  · cases h.symm.trans he
  · exact hr

theorem withRange_of_rangeError {α : Type} {lo hi : Round} (h : rangeError lo hi ≠ .ok) (work : α) :
    withRange lo hi work = .error (rangeError lo hi) := by
  obtain ⟨hr, he⟩ | ⟨-, he⟩ := rangeError_cases lo hi
  · rw [he, withRange_invalid hr]
  · exact absurd he h

theorem countError_cases (n : Nat) :
    (32 < n ∧ countError n = .illegalCommand) ∨ (n = 0 ∧ countError n = .emptyTrail)
      ∨ (1 ≤ n ∧ n ≤ 32 ∧ countError n = .ok) := by
  unfold countError
  split
  next h => exact .inl ⟨h, rfl⟩
  next h =>
    split
    next h0 => exact .inr (.inl ⟨h0, rfl⟩)
    next h0 => exact .inr (.inr ⟨by omega, by omega, rfl⟩)

/-- Only WGHT can be an illegal command once it is decoded (R71 (c)). -/
theorem operationError_eq_illegalCommand_iff {q : Request} {i : Instr} :
    operationError q i = .illegalCommand ↔ i = .wght ∧ 32 < q.tri.n.toNat := by
  cases i with
  | wght =>
    obtain ⟨hn, he⟩ | ⟨hn, he⟩ | ⟨-, hn, he⟩ := countError_cases q.tri.n.toNat
    · simp [operationError, he, hn]
    · simp [operationError, he, show q.tri.n.toNat ≤ 32 by omega]
    · simp [operationError, he, hn]
  | rndf m t lo hi | rndb m t lo hi | rank lo hi =>
    obtain ⟨-, he⟩ | ⟨-, he⟩ := rangeError_cases lo hi <;> simp [operationError, he]
  | slyr | plyr | pinv | frnd | rrev | ksch | encb | decb => simp [operationError]

section
variable {s : State} {q : Request} (h : Ready s q)
include h

/-- A ready operation without an error completes. -/
theorem exec_completes {i : Instr} (he : operationError q i = .ok) : ∃ t, exec i s = .next t ∧ Completes s q i t := by
  cases i with
  | slyr m => exact ⟨_, exec_slyr h m, .slyr m⟩
  | plyr => exact ⟨_, exec_plyr h, .plyr⟩
  | pinv => exact ⟨_, exec_pinv h, .pinv⟩
  | frnd m t => exact ⟨_, exec_frnd h m t, .frnd m t⟩
  | rrev => exact ⟨_, exec_rrev h, .rrev⟩
  | ksch m => exact ⟨_, exec_ksch h m, .ksch m⟩
  | rndf m t lo hi =>
    have hr := le_of_rangeError_eq_ok he
    exact ⟨_, exec_rndf h m t hr, .rndf m t hr⟩
  | rndb m t lo hi =>
    have hr := le_of_rangeError_eq_ok he
    exact ⟨_, exec_rndb h m t hr, .rndb m t hr⟩
  | encb => exact ⟨_, exec_encb h, .encb⟩
  | decb => exact ⟨_, exec_decb h, .decb⟩
  | wght =>
    obtain ⟨-, hc⟩ | ⟨-, hc⟩ | ⟨h1, h32, -⟩ := countError_cases q.tri.n.toNat
    · cases he.symm.trans hc
    · cases he.symm.trans hc
    · exact ⟨_, exec_wght h h1 h32, .wght h1 h32⟩
  | rank lo hi =>
    have hr := le_of_rangeError_eq_ok he
    exact ⟨_, exec_rank h hr, .rank hr rfl⟩

/-- A ready operation with an error ends in it, and changes nothing else (R184). -/
theorem exec_raises {i : Instr} (he : operationError q i ≠ .ok) :
    exec i s = .next (raiseError s (operationError q i)) := by
  cases i with
  | rndf m t lo hi =>
    unfold exec execRndf
    exact serve_error h (withRange_of_rangeError he _)
  | rndb m t lo hi =>
    unfold exec execRndb
    exact serve_error h (withRange_of_rangeError he _)
  | rank lo hi =>
    unfold exec execRank
    exact serve_error h (withRange_of_rangeError he _)
  | wght =>
    unfold exec execWght
    refine serve_error h ?_
    obtain ⟨hn, hc⟩ | ⟨hn, hc⟩ | ⟨-, -, hc⟩ := countError_cases q.tri.n.toNat
    · rw [operationError, hc]
      simp [trailCountLegal, hn]
    · rw [operationError, hc]
      simp [trailCountLegal, weight, trailVectors_eq_nil, hn]
    · exact absurd hc he
  | slyr | plyr | pinv | frnd | rrev | ksch | encb | decb => exact absurd rfl he

end

/-! ### Illegal commands -/

theorem Completes.err_eq_zero {s t : State} {q : Request} {i : Instr} (h : Completes s q i t) :
    ∃ rsp, t.rsp = some rsp ∧ rsp.err = 0 := by
  cases h <;> exact ⟨_, rfl, rfl⟩

theorem errBits_injective : Function.Injective errBits := by
  intro e e' h
  cases e <;> cases e' <;> simp_all [errBits]

/-- A ready operation answers with an error's code alone exactly when it ends in that error. -/
theorem exec_eq_raiseError_iff {s : State} {q : Request} (h : Ready s q) {i : Instr} {e : ErrCode} (hne : e ≠ .ok) :
    exec i s = .next (raiseError s e) ↔ operationError q i = e := by
  constructor
  · intro hx
    by_cases he : operationError q i = .ok
    · obtain ⟨t, ht, hc⟩ := exec_completes h he
      obtain rfl : t = raiseError s e := Host.Outcome.next.inj (ht.symm.trans hx)
      obtain ⟨rsp, hrsp, herr⟩ := hc.err_eq_zero
      cases hrsp
      exact absurd ((errBits_eq_zero_iff e).mp herr) hne
    · have hs := Host.Outcome.next.inj ((exec_raises h he).symm.trans hx)
      have hrsp := Option.some.inj (congrArg State.rsp hs)
      exact errBits_injective (congrArg Response.err hrsp)
  · rintro rfl
    exact exec_raises h hne

theorem opNumber_eq_wght_iff {w : CmdWord} {i : Instr} (h : decode w = .ok i) : opNumber w = 0xB ↔ i = .wght := by
  rw [opNumber, ← decode_eq_ok_iff.mp h]
  cases i <;> simp [fieldsOf]

/-- Settles O3: a word with illegal fields is not decoded, and of the operations only WGHT can be illegal. -/
theorem illegalCommandExactlyWhenIllegal : Obligations.IllegalCommandExactlyWhenIllegal := by
  intro s q h
  change step s = .next (raiseError s .illegalCommand) ↔ _
  rw [step_of_request h.1]
  have hd := decode_decodedAs q.cmd
  cases hw : decode q.cmd with
  | error e =>
    rw [hw, DecodedAs] at hd
    simp [illegalRequest, hd, serveIllegal, serve_error h]
  | ok i =>
    rw [hw, DecodedAs] at hd
    have hwf : (fieldsOfWord q.cmd).wf = true := hd ▸ fieldsOf_wf i
    rw [exec_eq_raiseError_iff h (by decide), operationError_eq_illegalCommand_iff, ← opNumber_eq_wght_iff hw]
    simp [illegalRequest, hwf]

/-! ### ENCB and DECB -/

/-- Settles O37: the subkeys that KSCH hands back are those ENCB and DECB compute, and each runs all 32 rounds. -/
theorem cipherIsScheduleThenRounds : Obligations.CipherIsScheduleThenRounds := by
  intro s q h
  have hask := ready_ask h { q with rki := keySchedule s.rom q.key .real }
  have hall : (0 : Round) ≤ 31 := by decide
  exact ⟨_, _, _, _, _, congrArg (fun o => (responseIn o).bind Response.rko) (exec_ksch h .real),
    congrArg resultR (exec_rndf hask .real false hall), congrArg resultR (exec_rndb hask .real false hall),
    exec_encb h, rfl, rfl, exec_decb h, rfl, rfl⟩

end Sys2Proof.Machine
end

section
/-!
The obligations on the utilities: nibble arrays (spec/40_utilities.md rules R86 and R87), rotations (rules R88 and
R89), and the activity vector with its count (rule R93, spec/41_round_function.md rule R102).
-/

namespace Sys2Proof.Machine

/-! ### Nibble arrays -/

theorem nibbleAt_getLsbD (v i : Nat) {b : Nat} (hb : b < 4) : (nibbleAt v i).getLsbD b = v.testBit (4 * i + b) := by
  rw [nibbleAt, BitVec.getLsbD_ofNat, Nat.testBit_shiftRight, decide_eq_true hb, Bool.true_and]

/-- Below the width the truncation of `ToArray` is not seen (R86). -/
theorem toArray_lsnFirst_getElem (v : Nat) {w i : Nat} (hi : i < w) :
    (toArray v w .lsnFirst)[i] = nibbleAt v i := by
  refine BitVec.eq_of_getLsbD_eq fun b hb => ?_
  have hin : 4 * i + b < 4 * w := by omega
  rw [toArray, Vector.getElem_ofFn, nibbleAt_getLsbD _ _ hb, nibbleAt_getLsbD _ _ hb, mask, Nat.testBit_and,
    Nat.testBit_two_pow_sub_one, decide_eq_true hin, Bool.and_true]

theorem nibbleAt_eq_div (v i : Nat) : nibbleAt v i = BitVec.ofNat 4 (v / 16 ^ i) := by
  rw [nibbleAt, Nat.shiftRight_eq_div_pow, pow_mul]
  rfl

/-- The two orders are each other's reversal (R86). -/
theorem toArray_msnFirst (v w : Nat) : toArray v w .msnFirst = (toArray v w .lsnFirst).reverse := by
  ext i hi
  simp [toArray]

/-- So the laws of `ArrToInt` for the most significant order follow from those for the other (R87). -/
theorem arrToInt_msnFirst {w : Nat} (a : Vector Nibble w) : arrToInt a .msnFirst = arrToInt a.reverse .lsnFirst := by
  simp [arrToInt]

/-- Bit `b` of the integer of an array is bit `b % 4` of its element `b / 4`, and 0 past the array (R87). -/
theorem arrToInt_lsnFirst_testBit {w : Nat} (a : Vector Nibble w) (b : Nat) :
    (arrToInt a .lsnFirst).testBit b = (a[b / 4]?.getD 0).getLsbD (b % 4) := by
  rw [arrToInt, nibblesToNat_testBit]
  simp

theorem arrToInt_toArray_lsnFirst (v w : Nat) : arrToInt (toArray v w .lsnFirst) .lsnFirst = v % 2 ^ (4 * w) := by
  refine Nat.eq_of_testBit_eq fun b => ?_
  rw [arrToInt_lsnFirst_testBit, Nat.testBit_mod_two_pow]
  by_cases hb : b < 4 * w
  · have hi : b / 4 < w := by omega
    have h4 : b % 4 < 4 := Nat.mod_lt _ (by decide)
    rw [Vector.getElem?_eq_getElem hi, Option.getD_some, toArray_lsnFirst_getElem v hi, nibbleAt_getLsbD v _ h4,
      Nat.div_add_mod, decide_eq_true hb, Bool.true_and]
  · have hi : w ≤ b / 4 := by omega
    simp [hi, hb]

theorem toArray_arrToInt_lsnFirst {w : Nat} (a : Vector Nibble w) :
    toArray (arrToInt a .lsnFirst) w .lsnFirst = a := by
  refine Vector.ext fun i hi => BitVec.eq_of_getLsbD_eq fun b hb => ?_
  have hdiv : (4 * i + b) / 4 = i := by omega
  have hmod : (4 * i + b) % 4 = b := by omega
  rw [toArray_lsnFirst_getElem _ hi, nibbleAt_getLsbD _ i hb, arrToInt_lsnFirst_testBit, hdiv, hmod,
    Vector.getElem?_eq_getElem hi, Option.getD_some]

theorem arrToInt_toArray (v w : Nat) (o : NibbleOrder) : arrToInt (toArray v w o) o = v % 2 ^ (4 * w) := by
  cases o with
  | lsnFirst => exact arrToInt_toArray_lsnFirst v w
  | msnFirst => rw [arrToInt_msnFirst, toArray_msnFirst, Vector.reverse_reverse, arrToInt_toArray_lsnFirst]

theorem toArray_arrToInt {w : Nat} (a : Vector Nibble w) (o : NibbleOrder) : toArray (arrToInt a o) w o = a := by
  cases o with
  | lsnFirst => exact toArray_arrToInt_lsnFirst a
  | msnFirst => rw [arrToInt_msnFirst, toArray_msnFirst, toArray_arrToInt_lsnFirst, Vector.reverse_reverse]

/-- Settles O22, by the laws of the least significant order, of which the other is the reversal. -/
theorem nibbleArrays : Obligations.NibbleArrays := by
  refine ⟨fun v w i => ⟨?_, ?_⟩, arrToInt_toArray, fun w => toArray_arrToInt⟩
  · exact (toArray_lsnFirst_getElem v i.isLt).trans (nibbleAt_eq_div v i)
  · have hj : w - 1 - i.val < w := by omega
    rw [toArray_msnFirst, Fin.getElem_fin, Vector.getElem_reverse, toArray_lsnFirst_getElem v hj, nibbleAt_eq_div]

/-! ### Rotations -/

/-- Modulo the width, going `r` places up and `w - r` more is going around once. -/
theorem add_mod_add_sub_mod {w r i : Nat} (hr : r ≤ w) (hi : i < w) : ((i + r) % w + (w - r)) % w = i := by
  rw [Nat.mod_add_mod, show i + r + (w - r) = i + w by omega, Nat.add_mod_right, Nat.mod_eq_of_lt hi]

/-- `RotL` moves bit `i` up by the amount, around the width (R88). -/
theorem rotL_getLsbD_add_mod (v a : Nat) {w i : Nat} (hi : i < w) :
    (rotL v a w).getLsbD ((i + a) % w) = v.testBit i := by
  have hw : 0 < w := by omega
  have hr : a % w ≤ w := (Nat.mod_lt a hw).le
  rw [rotL_getLsbD v a _ (Nat.mod_lt _ hw), ← Nat.add_mod_mod i, add_mod_add_sub_mod hr hi]

/-- `RotR` brings bit `i` from the place above it by the amount, around the width (R89). -/
theorem rotR_getLsbD_eq (v a : Nat) {w i : Nat} (hi : i < w) :
    (rotR v a w).getLsbD i = v.testBit ((i + a) % w) := by
  rw [rotR_getLsbD v a i hi, Nat.add_mod_mod]

theorem rotR_rotL (v a w : Nat) : rotR (rotL v a w).toNat a w = BitVec.ofNat w v := by
  refine BitVec.eq_of_getLsbD_eq fun i hi => ?_
  rw [rotR_getLsbD_eq _ a hi, BitVec.testBit_toNat, rotL_getLsbD_add_mod v a hi,
    BitVec.getLsbD_ofNat, decide_eq_true hi, Bool.true_and]

theorem rotL_rotR (v a w : Nat) : rotL (rotR v a w).toNat a w = BitVec.ofNat w v := by
  refine BitVec.eq_of_getLsbD_eq fun i hi => ?_
  have hw : 0 < w := by omega
  have hr : a % w ≤ w := (Nat.mod_lt a hw).le
  have hback := add_mod_add_sub_mod (Nat.sub_le w (a % w)) hi
  rw [Nat.sub_sub_self hr] at hback
  rw [rotL_getLsbD _ a i hi, BitVec.testBit_toNat, rotR_getLsbD v a _ (Nat.mod_lt _ hw), hback,
    BitVec.getLsbD_ofNat, decide_eq_true hi, Bool.true_and]

/-- Settles O23, by the bit that each rotation brings to a position. -/
theorem rotations : Obligations.Rotations := fun v a w _ =>
  ⟨fun _ => rotL_getLsbD_add_mod v a, fun _ => rotR_getLsbD_eq v a, rotR_rotL v a w, rotL_rotR v a w⟩

/-! ### The activity vector -/

/-- A sum of flags counts those that are set. -/
theorem sum_map_toNat_eq_countP {α : Type} (p : α → Bool) (l : List α) :
    (l.map fun x => (p x).toNat).sum = l.countP p := by
  induction l with
  | nil => rfl
  | cons x l ih => cases hx : p x <;> simp [hx, ih, Nat.add_comm]

theorem pop8_eq_setBits (v : ActVec) : pop8 v = setBits v :=
  calc pop8 v = (List.finRange 8).countP (v.getLsbD ∘ Fin.val) := sum_map_toNat_eq_countP _ _
    _ = ((List.finRange 8).map Fin.val).countP v.getLsbD := List.countP_map.symm
    _ = setBits v := by rw [List.map_coe_finRange_eq_range, setBits]

/-- Settles O26: a bit of `Act` is the flag of its nibble, and a sum of flags is a count. -/
theorem activityVector : Obligations.ActivityVector :=
  ⟨act_getLsbD, pop8_eq_setBits⟩

end Sys2Proof.Machine
end

section
/-!
The obligations on the round function (spec/41_round_function.md rules R100 to R110): what each layer does to a word
in either mode, and SLYR, PLYR, PINV and FRND as these layers applied to the low half of the operand.
-/

namespace Sys2Proof.Machine

/-! ### The operations, nibble by nibble -/

/-- Settles O27, by the S-layer on the nibbles of the low half. -/
theorem slyrSubstitutesEachNibble : Obligations.SlyrSubstitutesEachNibble := by
  intro s q m h
  have hnib (i : Lane) : nib (zext64 (sLayer s.rom (low32 q.a) m)) i = sub s.rom (laneTable i) (nib q.a i) m := by
    rw [nib_zext64, nib_sLayer, nib_low32]
  refine ⟨_, exec_slyr h m, high32_zext64 _, ?_, ?_⟩
  · rintro rfl
    exact hnib
  · rintro rfl
    exact hnib

/-- Settles O28, by the two permutation layers on the nibbles of the low half. -/
theorem plyrAndPinvMoveNibbles : Obligations.PlyrAndPinvMoveNibbles := by
  intro s q h
  refine ⟨⟨_, exec_plyr h, high32_zext64 _, fun i => ?_⟩, ⟨_, exec_pinv h, high32_zext64 _, fun i => ?_⟩⟩
  · rw [nib_zext64, nib_pLayer, nib_low32]
  · rw [nib_zext64, nib_pInvLayer, nib_low32]

/-- Settles O30, by the round function on the nibbles of the low half. -/
theorem frndSubstitutesThenPermutes : Obligations.FrndSubstitutesThenPermutes := by
  intro s q m t h
  refine ⟨_, _, exec_frnd h m t, high32_zext64 _, fun i => ?_, fun i => ?_⟩
  · rw [nib_zext64, nib_roundF, nib_low32]
  · rw [roundF_av_getLsbD, nib_low32]

/-! ### The permutation layers undo each other -/

section
variable {rom : Rom} (h : InversePermutations rom)
include h

theorem pInvLayer_pLayer (v : Word) : pInvLayer rom (pLayer rom v) = v :=
  word_ext_nib fun i => by rw [nib_pInvLayer, nib_pLayer, (h i).2]

theorem pLayer_pInvLayer (v : Word) : pLayer rom (pInvLayer rom v) = v :=
  word_ext_nib fun i => by rw [nib_pLayer, nib_pInvLayer, (h i).1]

theorem pLayer_injective : Function.Injective (pLayer rom) := Function.LeftInverse.injective (pInvLayer_pLayer h)

end

theorem resultR_exec_plyr {s : State} {q : Request} (h : Ready s q) :
    resultR (exec .plyr s) = some (zext64 (pLayer s.rom (low32 q.a))) :=
  congrArg resultR (exec_plyr h)

theorem resultR_exec_pinv {s : State} {q : Request} (h : Ready s q) :
    resultR (exec .pinv s) = some (zext64 (pInvLayer s.rom (low32 q.a))) :=
  congrArg resultR (exec_pinv h)

/-- Settles O29: the layers undo each other, and the result of one operation, asked of the other, is its low half. -/
theorem permutationLayersAreInverse : Obligations.PermutationLayersAreInverse := by
  intro s q hq h
  refine ⟨nib_pInvLayer s.rom, fun v => ⟨pInvLayer_pLayer h v, pLayer_pInvLayer h v⟩,
    ⟨_, resultR_exec_plyr hq, ?_⟩, ⟨_, resultR_exec_pinv hq, ?_⟩⟩
  · rw [resultR_exec_pinv (ready_ask hq _), ask_rom, low32_zext64, pInvLayer_pLayer h]
  · rw [resultR_exec_plyr (ready_ask hq _), ask_rom, low32_zext64, pLayer_pInvLayer h]

/-! ### Real mode: the round function is a bijection -/

theorem sub_real_injective {rom : Rom} {t : Fin 10} (h : BijectiveTable rom.sbox[t]) :
    Function.Injective fun x => sub rom t x .real :=
  fun _ _ hxy => BitVec.eq_of_toFin_eq (h.injective hxy)

theorem sLayer_real_injective {rom : Rom} (h : ∀ t : Fin 10, BijectiveTable rom.sbox[t]) :
    Function.Injective fun x => sLayer rom x .real := by
  intro x y hxy
  refine word_ext_nib fun i => sub_real_injective (h (laneTable i)) ?_
  simpa using congrArg (fun z => nib z i) hxy

/-- The layers are injective, and there are finitely many words. -/
theorem roundF_real_bijective {rom : Rom} (hp : InversePermutations rom)
    (hs : ∀ t : Fin 10, BijectiveTable rom.sbox[t]) :
    Function.Bijective fun x : Word => (roundF rom x .real).1 := by
  have : Finite Word := Finite.of_injective BitVec.toFin fun _ _ => BitVec.eq_of_toFin_eq
  exact Finite.injective_iff_bijective.mp ((pLayer_injective hp).comp (sLayer_real_injective hs))

/-! ### Differential mode: saturation -/

theorem saturate_eq_zero_or (x : Nibble) : saturate x = 0 ∨ saturate x = 0xF := by
  unfold saturate
  split
  · exact .inl rfl
  · exact .inr rfl

@[simp] theorem saturate_zero : saturate 0 = 0 := rfl

@[simp] theorem saturate_eq_zero_iff {x : Nibble} : saturate x = 0 ↔ x = 0 := by
  by_cases hx : x = 0 <;> simp [saturate, hx]

theorem bitsBelow.nib {w : Nat} {a b : BitVec w} (h : bitsBelow a b) (i : Nat) : bitsBelow (nib a i) (nib b i) :=
  h.extract (4 * i) 4

/-- Words compare nibble by nibble. -/
theorem bitsBelow_of_lanes {x y : Word} (h : ∀ i : Lane, bitsBelow (nib x i) (nib y i)) : bitsBelow x y :=
  word_ext_nib fun i => BitVec.extractLsb'_and.trans (h i)

theorem eq_zero_of_bitsBelow_zero {w : Nat} {x : BitVec w} (h : bitsBelow x 0) : x = 0 :=
  h.symm.trans BitVec.and_zero

/-- A nibble that is active stays active when bits are added to the word. -/
theorem act_mono {z z' : Word} (h : bitsBelow z z') : bitsBelow (act z) (act z') := by
  rw [bitsBelow_iff]
  intro b hb
  obtain ⟨i, rfl⟩ : ∃ i : Lane, i.val = b := ⟨⟨b, BitVec.lt_of_getLsbD hb⟩, rfl⟩
  rw [act_getLsbD, decide_eq_true_iff] at hb ⊢
  intro hz'
  exact hb (eq_zero_of_bitsBelow_zero (hz' ▸ h.nib i))

theorem pLayer_mono (rom : Rom) {z z' : Word} (h : bitsBelow z z') : bitsBelow (pLayer rom z) (pLayer rom z') := by
  refine bitsBelow_of_lanes fun i => ?_
  rw [nib_pLayer, nib_pLayer]
  exact h.nib _

theorem nib_zero {w : Nat} (i : Nat) : nib (0 : BitVec w) i = 0 := by
  simp [nib]

@[simp] theorem pLayer_zero (rom : Rom) : pLayer rom 0 = 0 :=
  word_ext_nib fun i => by rw [nib_pLayer, nib_zero, nib_zero]

section
variable {rom : Rom} (h : SaturatingTable rom)
include h

theorem nib_sLayer_diff (x : Word) (i : Lane) : nib (sLayer rom x .diff) i = saturate (nib x i) := by
  rw [nib_sLayer, sub_diff_eq_saturate h]

theorem sLayer_diff_mono {x x' : Word} (hx : bitsBelow x x') :
    bitsBelow (sLayer rom x .diff) (sLayer rom x' .diff) := by
  refine bitsBelow_of_lanes fun i => ?_
  rw [nib_sLayer_diff h, nib_sLayer_diff h]
  exact saturate_mono (hx.nib i)

theorem sLayer_diff_eq_zero_iff {x : Word} : sLayer rom x .diff = 0 ↔ x = 0 := by
  constructor
  · intro hx
    refine word_ext_nib fun i => ?_
    rw [nib_zero, ← saturate_eq_zero_iff, ← nib_sLayer_diff h, hx, nib_zero]
  · rintro rfl
    refine word_ext_nib fun i => ?_
    rw [nib_sLayer_diff h, nib_zero, saturate_zero]

theorem roundF_diff_zero : roundF rom 0 .diff = (0, 0) := by
  have hz : sLayer rom 0 .diff = 0 := (sLayer_diff_eq_zero_iff h).mpr rfl
  have hact : act 0 = 0 := by decide
  rw [roundF, hz, pLayer_zero, hact]

theorem nib_roundF_diff_eq_zero_or (x : Word) (i : Lane) :
    nib (roundF rom x .diff).1 i = 0 ∨ nib (roundF rom x .diff).1 i = 0xF := by
  rw [nib_roundF, sub_diff_eq_saturate h]
  exact saturate_eq_zero_or _

/-- The vector counts the nonzero input nibbles, for saturation keeps each of them nonzero. -/
theorem pop8_roundF_diff (x : Word) :
    pop8 (roundF rom x .diff).2 = (List.range 8).countP fun i => decide (nib x i ≠ 0) := by
  rw [pop8_eq_setBits, setBits]
  refine List.countP_congr fun b hb => ?_
  obtain ⟨i, rfl⟩ : ∃ i : Lane, i.val = b := ⟨⟨b, List.mem_range.mp hb⟩, rfl⟩
  rw [roundF_av_getLsbD, sub_diff_eq_saturate h, decide_eq_true_iff, decide_eq_true_iff]
  exact saturate_eq_zero_iff.not

end

/-- Settles O31: in real mode the layers are injective; in differential mode the S-layer saturates each nibble, and the
P-layer and the vector keep the order of words. -/
theorem roundFunctionProperties : Obligations.RoundFunctionProperties := by
  intro rom hp
  refine ⟨roundF_real_bijective hp, fun h => ⟨nib_roundF_diff_eq_zero_or h, fun x => ?_, pop8_roundF_diff h,
    fun x x' hx => ?_, roundF_diff_zero h⟩⟩
  · have hzero : pLayer rom (sLayer rom x .diff) = 0 ↔ sLayer rom x .diff = 0 :=
      (pLayer_injective hp).eq_iff' (pLayer_zero rom)
    exact hzero.trans (sLayer_diff_eq_zero_iff h)
  · have hz := sLayer_diff_mono h hx
    exact ⟨pLayer_mono rom hz, act_mono hz⟩

end Sys2Proof.Machine
end

section
/-!
The obligation on the reverse round (spec/42_reverse_round.md rules R120 to R122): what the reverse round function
does to each nibble, and RREV as this function applied to the two halves of the operand.
-/

namespace Sys2Proof.Machine

/-- Nibble `i` of the extended value is that of the previous value OR-ed with nibble `PINV[i]` of the current one
(R120). -/
theorem nib_revF (rom : Rom) (cur prev : Word) (i : Lane) :
    nib (revF rom cur prev).1 i = nib prev i ||| nib cur rom.pinv[i] := by
  simp [revF]

/-- The flags of `RevF` are the activity of the word it returns (R122). -/
theorem revF_av_eq_act (rom : Rom) (cur prev : Word) : (revF rom cur prev).2 = act (revF rom cur prev).1 := by
  refine congrArg activity (Vector.ext fun i hi => ?_)
  rw [revF, lanes_getElem, nib_ofLanes _ _ hi]

/-- Settles O32, by the reverse round function on the nibbles of the two halves. -/
theorem rrevExtendsBackward : Obligations.RrevExtendsBackward := by
  intro s q h
  refine ⟨_, _, exec_rrev h, high32_zext64 _, fun i => ?_, fun i => ?_⟩
  · rw [nib_zext64, nib_revF]
  · rw [nib_zext64, revF_av_eq_act, act_getLsbD]

end Sys2Proof.Machine
end

section
/-!
The obligation on the key schedule (spec/43_key_schedule.md rules R127 to R129): what an update does to the two
substituted nibbles and to the bits below them, in either mode, and KSCH as the sequence of these updates.
-/

namespace Sys2Proof.Machine

/-- The counter of a round enters at bits 50..46 alone, and in real mode alone (R129, R130). -/
theorem injectCounter_getLsbD (k : Key) {r : Nat} (hr : r < 32) (m : Mode) (b : Nat) :
    (injectCounter k r m).getLsbD b
      = (k.getLsbD b ^^ (decide (m = .real) && decide (46 ≤ b) && decide (b ≤ 50) && r.testBit (b - 46))) := by
  cases m with
  | diff => simp [injectCounter]
  | real =>
    rw [injectCounter, BitVec.getLsbD_xor, BitVec.getLsbD_ofNat, Nat.testBit_shiftLeft, Config.ksCtrPos]
    congr 1
    by_cases hb : b ≤ 50
    · have hb80 : b < 80 := by omega
      simp [hb, hb80]
    · have hpow : 2 ^ 5 ≤ 2 ^ (b - 46) := Nat.pow_le_pow_right (by decide) (by omega)
      have hhigh : r.testBit (b - 46) = false := Nat.testBit_lt_two_pow (by omega)
      simp [hhigh]

/-- The counter stays below the fields that start above bit 50. -/
theorem injectCounter_extract_high (k : Key) {r : Nat} (hr : r < 32) (m : Mode) {start : Nat} (hs : 50 < start)
    (len : Nat) : (injectCounter k r m).extractLsb' start len = k.extractLsb' start len := by
  refine BitVec.eq_of_getLsbD_eq fun i _ => ?_
  have hb : ¬ start + i ≤ 50 := by omega
  simp [BitVec.getLsbD_extractLsb', injectCounter_getLsbD k hr, hb]

section
variable (rom : Rom) (k : Key) {r : Nat} (hr : r < 32) (m : Mode)

/-- An update is the rotation, the two table look-ups and the counter (R129). -/
theorem ksUpdate_eq_injectCounter :
    ksUpdate rom k r m = injectCounter (sub rom 9 ((k.rotateLeft 29).extractLsb' 76 4) m
      ++ sub rom 8 ((k.rotateLeft 29).extractLsb' 72 4) m ++ (k.rotateLeft 29).extractLsb' 0 72) r m := by
  rw [ksUpdate, Config.ksRot, rotL_eq_rotateLeft k 29 (by decide)]

include hr

/-- Table 9 works on the top nibble of the rotated key state (R129). -/
theorem ksUpdate_top_nibble :
    (ksUpdate rom k r m).extractLsb' 76 4 = sub rom 9 ((k.rotateLeft 29).extractLsb' 76 4) m := by
  rw [ksUpdate_eq_injectCounter, injectCounter_extract_high _ hr m (by decide),
    BitVec.extractLsb'_append_eq_of_le (by decide), BitVec.extractLsb'_append_eq_of_le (by decide)]
  exact BitVec.extractLsb'_eq_self

/-- Table 8 works on the nibble below the top one (R129). -/
theorem ksUpdate_next_nibble :
    (ksUpdate rom k r m).extractLsb' 72 4 = sub rom 8 ((k.rotateLeft 29).extractLsb' 72 4) m := by
  rw [ksUpdate_eq_injectCounter, injectCounter_extract_high _ hr m (by decide),
    BitVec.extractLsb'_append_eq_of_le (by decide), BitVec.extractLsb'_append_eq_of_add_le (by decide)]
  exact BitVec.extractLsb'_eq_self

/-- Below the two substituted nibbles an update is the rotation and the counter (R129). -/
theorem ksUpdate_getLsbD_low {b : Nat} (hb : b < 72) :
    (ksUpdate rom k r m).getLsbD b = ((k.rotateLeft 29).getLsbD b
      ^^ (decide (m = .real) && decide (46 ≤ b) && decide (b ≤ 50) && r.testBit (b - 46))) := by
  rw [ksUpdate_eq_injectCounter, injectCounter_getLsbD _ hr, BitVec.getLsbD_append, if_pos hb,
    BitVec.getLsbD_extractLsb', decide_eq_true hb, Nat.zero_add, Bool.true_and]

end

/-- Settles O33: the key states of the schedule are the sequence, for each is one update of the one before. -/
theorem kschEmitsTheSubkeys : Obligations.KschEmitsTheSubkeys := by
  intro s q m h
  refine ⟨keyState s.rom q.key m, keySchedule s.rom q.key m, _, rfl, fun r hr => ?_,
    keySchedule_getElem s.rom q.key m, exec_ksch h m, rfl, rfl⟩
  have hround : r + 1 < 32 := by omega
  exact ⟨ksUpdate_top_nibble _ _ hround m, ksUpdate_next_nibble _ _ hround m,
    fun b hb => ksUpdate_getLsbD_low _ _ hround m hb⟩

end Sys2Proof.Machine
end

section
/-!
The obligations on the Feistel engine (spec/44_feistel.md rules R138 to R150): the halves of a block, the word sequence
that a run in either direction computes, a run as rounds on blocks, which compose, and in real mode undo each other, and
ENCB and DECB as such runs.
-/

namespace Sys2Proof.Machine

/-! ### The halves of a block -/

theorem low32_toNat (b : Block) : (low32 b).toNat = b.toNat % 2 ^ 32 := by
  rw [low32, BitVec.extractLsb'_toNat, Nat.shiftRight_zero]

theorem high32_toNat (b : Block) : (high32 b).toNat = b.toNat / 2 ^ 32 := by
  have hb : b.toNat / 2 ^ 32 < 2 ^ 32 := Nat.div_lt_of_lt_mul b.isLt
  rw [high32, BitVec.extractLsb'_toNat, Nat.shiftRight_eq_div_pow, Nat.mod_eq_of_lt hb]

/-- Settles O25, by the laws of the halves. -/
theorem splitAndJoin : Obligations.SplitAndJoin :=
  ⟨fun b => ⟨low32_toNat b, high32_toNat b, join_low_high b⟩,
    fun x0 x1 => ⟨toNat_append_eq_add x1 x0, low32_join x0 x1, high32_join x0 x1⟩⟩

/-! ### The rounds of a range -/

theorem length_roundsUp (lo hi : Round) : (roundsUp lo hi).length = hi.val + 1 - lo.val := by
  simpa using congrArg List.length (roundsUp_map_val lo hi)

theorem length_roundsUp_of_le {lo hi : Round} (hr : lo ≤ hi) : (roundsUp lo hi).length = hi.val - lo.val + 1 := by
  rw [length_roundsUp, Nat.sub_add_comm hr]

/-- Round number `i` of a range is `lo + i`. -/
theorem roundsUp_getElem_val {lo hi : Round} {i : Nat} (h : i < (roundsUp lo hi).length) :
    (roundsUp lo hi)[i].val = lo.val + i := by
  rw [← List.getElem_map Fin.val (h := by simpa using h), List.getElem_of_eq (roundsUp_map_val lo hi),
    List.getElem_range'_1]

/-- Round number `i` of a range in descending order is `hi - i`. -/
theorem roundsUp_reverse_getElem_val {lo hi : Round} {i : Nat} (h : i < (roundsUp lo hi).reverse.length) :
    (roundsUp lo hi).reverse[i].val = hi.val - i := by
  rw [List.length_reverse, length_roundsUp] at h
  rw [List.getElem_reverse, roundsUp_getElem_val, length_roundsUp]
  omega

theorem roundsUp_getElem? {lo hi r : Round} (hlo : lo ≤ r) (hhi : r ≤ hi) :
    (roundsUp lo hi)[r.val - lo.val]? = some r := by
  have hlo' : lo.val ≤ r.val := hlo
  have hhi' : r.val ≤ hi.val := hhi
  have h : r.val - lo.val < (roundsUp lo hi).length := by
    rw [length_roundsUp]
    omega
  refine List.getElem?_eq_some_iff.mpr ⟨h, Fin.ext ?_⟩
  rw [roundsUp_getElem_val h, Nat.add_sub_cancel' hlo']

/-- A range is its two parts one after the other. -/
theorem roundsUp_append {lo mid next hi : Round} (hlo : lo ≤ mid) (hnext : next.val = mid.val + 1)
    (hhi : next ≤ hi) : roundsUp lo mid ++ roundsUp next hi = roundsUp lo hi := by
  have hlo' : lo.val ≤ mid.val := hlo
  have hhi' : next.val ≤ hi.val := hhi
  have hstart : next.val = lo.val + (mid.val + 1 - lo.val) := by omega
  have hlen : mid.val + 1 - lo.val + (hi.val + 1 - next.val) = hi.val + 1 - lo.val := by omega
  refine List.map_injective_iff.mpr Fin.val_injective ?_
  rw [List.map_append, roundsUp_map_val, roundsUp_map_val, roundsUp_map_val, ← hlen, ← List.range'_append_1,
    ← hstart]

/-! ### The word sequence of a run -/

/-- What the loop of R142 and R143 computes, when `a i` and `b i` are the halves before its round number `i`. -/
theorem runRounds_eq_of_states {round : Round → Word → Word → RoundOut} {rs : List Round} {a b : Nat → Word}
    {v : Round → ActVec}
    (h : ∀ i (hi : i < rs.length), round rs[i] (a i) (b i) = ⟨a (i + 1), b (i + 1), v rs[i]⟩) :
    runRounds round rs (a 0) (b 0)
      = ⟨a rs.length, b rs.length, rs.map v, (List.range (rs.length + 1)).map a ++ [b rs.length]⟩ := by
  induction rs generalizing a b with
  | nil => simp [runRounds]
  | cons r rest ih =>
    have hfirst : round r (a 0) (b 0) = ⟨a 1, b 1, v r⟩ := h 0 (by simp)
    have hrest := ih (a := fun i => a (i + 1)) (b := fun i => b (i + 1)) fun i hi => h (i + 1) (by simpa using hi)
    simp only [runRounds, hfirst, hrest]
    simp [List.range_succ_eq_map (n := rest.length + 1), Function.comp_def]

/-- The words that the halves of a run pass through, in the order it reaches them: each comes from the two before it. -/
def wordSeq (next : Nat → Word → Word → Word) (x y : Word) : Nat → Word
  | 0 => x
  | 1 => y
  | n + 2 => next n (wordSeq next x y n) (wordSeq next x y (n + 1))

/-- The rounds upward from `lo` reach a word each, from the two they start with. -/
theorem exists_words_upward (g : Round → Word → Word → Word) (lo : Round) (x y : Word) :
    ∃ W : Nat → Word, W lo = x ∧ W (lo + 1) = y ∧ ∀ r : Round, lo ≤ r → W (r + 2) = g r (W r) (W (r + 1)) := by
  refine ⟨fun k => wordSeq (fun n => g (Fin.ofNat 32 (lo + n))) x y (k - lo), by simp [wordSeq], by simp [wordSeq],
    fun r hr => ?_⟩
  obtain ⟨n, hn⟩ := Nat.exists_eq_add_of_le (show lo.val ≤ r.val from hr)
  have hround : Fin.ofNat 32 (lo.val + n) = r := hn ▸ Fin.ofNat_val_eq_self r
  simp only [hn, Nat.add_assoc, Nat.add_sub_cancel_left, wordSeq, hround]

/-- So do the rounds downward from `hi`. -/
theorem exists_words_downward (g : Round → Word → Word → Word) (hi : Round) (x y : Word) :
    ∃ V : Nat → Word, V (hi + 1) = x ∧ V (hi + 2) = y ∧ ∀ r : Round, r ≤ hi → V r = g r (V (r + 1)) (V (r + 2)) := by
  refine ⟨fun k => wordSeq (fun n u v => g (Fin.ofNat 32 (hi - n)) v u) y x (hi + 2 - k), by simp [wordSeq],
    by simp [wordSeq], fun r hr => ?_⟩
  obtain ⟨n, hn⟩ := Nat.exists_eq_add_of_le (show r.val ≤ hi.val from hr)
  have hround : Fin.ofNat 32 (hi.val - n) = r := by rw [hn, Nat.add_sub_cancel, Fin.ofNat_val_eq_self]
  have h0 : hi.val + 2 - r = n + 2 := by omega
  have h1 : hi.val + 2 - (r + 1) = n + 1 := by omega
  have h2 : hi.val + 2 - (r + 2) = n := by omega
  simp only [h0, h1, h2, wordSeq, hround]

section
variable (rom : Rom) (rk : Vector Word 32) (m : Mode) (r : Round)

/-- A round as the loop of R142 takes it. -/
def forwardRound (x0 x1 : Word) : RoundOut := fwdRound rom x0 x1 rk[r] m

/-- A round as the loop of R143 takes it. -/
def backwardRound (x0 x1 : Word) : RoundOut := bwdRound rom x0 x1 rk[r] m

/-- The activity vector of a round, from the half `x` that enters its `F`. -/
def roundVector (x : Word) : ActVec := (roundF rom (combine x rk[r] m) m).2

/-- The recurrence upward: the word after `w`, `x` (R139). -/
def forwardWord (w x : Word) : Word := combine (roundF rom (combine x rk[r] m) m).1 (w.rotateLeft 8) m

/-- The recurrence downward: the word before `x`, `w` (R140). -/
def backwardWord (x w : Word) : Word := (combine (roundF rom (combine x rk[r] m) m).1 w m).rotateRight 8

theorem forwardRound_eq (x0 x1 : Word) :
    forwardRound rom rk m r x0 x1 = ⟨x1, forwardWord rom rk m r x0 x1, roundVector rom rk m r x1⟩ := by
  rw [forwardRound, fwdRound, Config.feistelRot, rotL_eq_rotateLeft x0 8 (by decide)]
  rfl

theorem backwardRound_eq (x0 x1 : Word) :
    backwardRound rom rk m r x0 x1 = ⟨backwardWord rom rk m r x0 x1, x0, roundVector rom rk m r x0⟩ := by
  rw [backwardRound, bwdRound, Config.feistelRot, rotR_eq_rotateRight _ 8 (by decide)]
  rfl

end

theorem runForward_eq_runRounds (rom : Rom) (b : Block) (rk : Vector Word 32) (m : Mode) (lo hi : Round) :
    runForward rom b rk m lo hi = runRounds (forwardRound rom rk m) (roundsUp lo hi) (low32 b) (high32 b) := rfl

theorem runBackward_eq_runRounds (rom : Rom) (b : Block) (rk : Vector Word 32) (m : Mode) (lo hi : Round) :
    runBackward rom b rk m lo hi
      = let run := runRounds (backwardRound rom rk m) (roundsUp lo hi).reverse (low32 b) (high32 b)
        ⟨run.x0, run.x1, run.trk.reverse, run.ist.reverse⟩ := rfl

section
variable {rom : Rom} {b : Block} {rk : Vector Word 32} {m : Mode} {lo hi : Round} (hr : lo ≤ hi)
include hr

/-- A forward run walks up the sequence that starts with the halves of its block (R142). -/
theorem runForward_eq_of_words {W : Nat → Word} (h0 : W lo = low32 b) (h1 : W (lo + 1) = high32 b)
    (hW : ∀ r : Round, lo ≤ r → W (r + 2) = forwardWord rom rk m r (W r) (W (r + 1))) :
    runForward rom b rk m lo hi
      = ⟨W (hi + 1), W (hi + 2), (roundsUp lo hi).map fun r => roundVector rom rk m r (W (r + 1)),
          (List.range' lo (hi.val - lo.val + 3)).map W⟩ := by
  have hr' : lo.val ≤ hi.val := hr
  have hstep : ∀ i (h : i < (roundsUp lo hi).length),
      forwardRound rom rk m (roundsUp lo hi)[i] (W (lo + i)) (W (lo + i + 1))
        = ⟨W (lo + (i + 1)), W (lo + (i + 1) + 1),
            roundVector rom rk m (roundsUp lo hi)[i] (W ((roundsUp lo hi)[i] + 1))⟩ := by
    intro i h
    have hround := hW _ (mem_roundsUp.mp (List.getElem_mem h)).1
    rw [roundsUp_getElem_val] at hround
    rw [forwardRound_eq, roundsUp_getElem_val, ← hround]
    rfl
  have hrun := runRounds_eq_of_states (a := fun i => W (lo + i)) (b := fun i => W (lo + i + 1))
    (v := fun r => roundVector rom rk m r (W (r + 1))) hstep
  have hist : List.range' lo (hi.val - lo.val + 3)
      = (List.range (hi.val - lo.val + 2)).map (lo.val + ·) ++ [hi.val + 2] := by
    rw [List.range'_1_concat, List.range'_eq_map_range, ← Nat.add_assoc, Nat.add_sub_cancel' hr']
  rw [length_roundsUp_of_le hr, ← Nat.add_assoc lo.val, Nat.add_sub_cancel' hr'] at hrun
  rw [runForward_eq_runRounds, ← h0, ← h1, hist, List.map_append, List.map_map]
  exact hrun

/-- A backward run walks down the sequence that ends with the halves of its block, and returns what it records in
ascending order (R143). -/
theorem runBackward_eq_of_words {V : Nat → Word} (h1 : V (hi + 1) = low32 b) (h2 : V (hi + 2) = high32 b)
    (hV : ∀ r : Round, r ≤ hi → V r = backwardWord rom rk m r (V (r + 1)) (V (r + 2))) :
    runBackward rom b rk m lo hi
      = ⟨V lo, V (lo + 1), (roundsUp lo hi).map fun r => roundVector rom rk m r (V (r + 1)),
          V (lo + 1) :: V lo :: (List.range' (lo + 1) (hi.val - lo.val + 1)).map V⟩ := by
  have hr' : lo.val ≤ hi.val := hr
  have hstep : ∀ i (h : i < (roundsUp lo hi).reverse.length),
      backwardRound rom rk m (roundsUp lo hi).reverse[i] (V (hi + 1 - i)) (V (hi + 2 - i))
        = ⟨V (hi + 1 - (i + 1)), V (hi + 2 - (i + 1)),
            roundVector rom rk m (roundsUp lo hi).reverse[i] (V ((roundsUp lo hi).reverse[i] + 1))⟩ := by
    intro i h
    have hval := roundsUp_reverse_getElem_val h
    have hround := hV _ (mem_roundsUp.mp (List.mem_reverse.mp (List.getElem_mem h))).2
    have hlt : i < hi.val - lo.val + 1 := by rwa [List.length_reverse, length_roundsUp_of_le hr] at h
    have hle : i ≤ hi.val := by omega
    have hdown : hi.val + 2 - (i + 1) = hi + 1 - i := by omega
    rw [hval, ← Nat.sub_add_comm hle, ← Nat.sub_add_comm hle] at hround
    rw [backwardRound_eq, ← hround, hval, hdown, Nat.add_sub_add_right, ← Nat.sub_add_comm hle]
  have hrun := runRounds_eq_of_states (a := fun i => V (hi + 1 - i)) (b := fun i => V (hi + 2 - i))
    (v := fun r => roundVector rom rk m r (V (r + 1))) hstep
  have hend1 : hi.val + 1 - (hi.val - lo.val + 1) = lo := by omega
  have hend2 : hi.val + 2 - (hi.val - lo.val + 1) = lo + 1 := by omega
  have hist : (List.range (hi.val - lo.val + 2)).map (fun i => V (hi + 1 - i))
      = ((List.range' lo (hi.val - lo.val + 2)).map V).reverse := by
    have htop : lo.val + (hi.val - lo.val + 2) - 1 = hi + 1 := by omega
    rw [← List.map_reverse, List.reverse_range', List.map_map, htop]
    rfl
  rw [List.length_reverse, length_roundsUp_of_le hr, hist, hend1, hend2, Nat.sub_zero, Nat.sub_zero, h1, h2] at hrun
  rw [runBackward_eq_runRounds, hrun, List.range'_succ]
  simp

end

/-- Settles O35: the sequence that starts with the halves of `A` is the one that the run walks. -/
theorem rndfRunsTheFeistelSequence : Obligations.RndfRunsTheFeistelSequence := by
  intro s q m t lo hi h hr
  obtain ⟨W, h0, h1, hW⟩ := exists_words_upward (forwardWord s.rom q.rki m) lo (low32 q.a) (high32 q.a)
  refine ⟨W, (roundsUp lo hi).map fun r => roundVector s.rom q.rki m r (W (r + 1)), _, h0, h1,
    fun r hlo hhi => ⟨hW r hlo, ?_⟩, ?_, exec_rndf h m t hr, ?_, rfl⟩
  · rw [List.getElem?_map, roundsUp_getElem? hlo hhi]
    rfl
  · rw [List.length_map, length_roundsUp_of_le hr]
  · rw [finishRun_rsp, runForward_eq_of_words hr h0 h1 hW]
    rfl

/-- Settles O36: the sequence that ends with the halves of `A` is the one that the run walks. -/
theorem rndbRunsTheSequenceBackward : Obligations.RndbRunsTheSequenceBackward := by
  intro s q m t lo hi h hr
  obtain ⟨V, h1, h2, hV⟩ := exists_words_downward (backwardWord s.rom q.rki m) hi (low32 q.a) (high32 q.a)
  refine ⟨V, (roundsUp lo hi).map fun r => roundVector s.rom q.rki m r (V (r + 1)), _, h1, h2,
    fun r hlo hhi => ⟨hV r hhi, ?_⟩, ?_, exec_rndb h m t hr, ?_, rfl⟩
  · rw [List.getElem?_map, roundsUp_getElem? hlo hhi]
    rfl
  · rw [List.length_map, length_roundsUp_of_le hr]
  · rw [finishRun_rsp, runBackward_eq_of_words hr h1 h2 hV]
    rfl

/-! ### A run as rounds on blocks -/

/-- The block that a run ends with, the field `R` of its response (R146, R147). -/
def Run.block (run : Run) : Block := join run.x0 run.x1

/-- One round from block to block. -/
def blockRound (round : Round → Word → Word → RoundOut) (b : Block) (r : Round) : Block :=
  join (round r (low32 b) (high32 b)).x0 (round r (low32 b) (high32 b)).x1

theorem runRounds_block (round : Round → Word → Word → RoundOut) (rs : List Round) (x0 x1 : Word) :
    (runRounds round rs x0 x1).block = rs.foldl (blockRound round) (join x0 x1) := by
  induction rs generalizing x0 x1 with
  | nil => rfl
  | cons r rest ih =>
    rw [List.foldl_cons, blockRound, low32_join, high32_join, ← ih]
    rfl

section
variable (rom : Rom) (b : Block) (rk : Vector Word 32) (m : Mode) (lo hi : Round)

theorem runForward_block :
    (runForward rom b rk m lo hi).block = (roundsUp lo hi).foldl (blockRound (forwardRound rom rk m)) b := by
  rw [runForward_eq_runRounds, runRounds_block, join_low_high]

theorem runBackward_block :
    (runBackward rom b rk m lo hi).block
      = (roundsUp lo hi).reverse.foldl (blockRound (backwardRound rom rk m)) b := by
  have h := runRounds_block (backwardRound rom rk m) (roundsUp lo hi).reverse (low32 b) (high32 b)
  rw [join_low_high] at h
  exact h

end

section
variable {s : State} {q : Request} (h : Ready s q) (m : Mode) {lo hi : Round} (hr : lo ≤ hi)
include h

section
include hr

theorem resultR_exec_rndf (t : Bool) :
    resultR (exec (.rndf m t lo hi) s) = some (runForward s.rom q.a q.rki m lo hi).block :=
  congrArg resultR (exec_rndf h m t hr)

theorem resultR_exec_rndb (t : Bool) :
    resultR (exec (.rndb m t lo hi) s) = some (runBackward s.rom q.a q.rki m lo hi).block :=
  congrArg resultR (exec_rndb h m t hr)

theorem resultTrail_exec_rndf :
    resultTrail (exec (.rndf m true lo hi) s) = some (runForward s.rom q.a q.rki m lo hi).trk :=
  (congrArg resultTrail (exec_rndf h m true hr)).trans
    (congrArg some (trailEntries_trailRecord (runForward_trk_le ..)))

theorem resultTrail_exec_rndb :
    resultTrail (exec (.rndb m true lo hi) s) = some (runBackward s.rom q.a q.rki m lo hi).trk :=
  (congrArg resultTrail (exec_rndb h m true hr)).trans
    (congrArg some (trailEntries_trailRecord (runBackward_trk_le ..)))

end

theorem resultR_exec_encb :
    resultR (exec .encb s) = some (runForward s.rom q.a (keySchedule s.rom q.key .real) .real 0 31).block :=
  congrArg resultR (exec_encb h)

theorem resultR_exec_decb :
    resultR (exec .decb s) = some (runBackward s.rom q.a (keySchedule s.rom q.key .real) .real 0 31).block :=
  congrArg resultR (exec_decb h)

end

/-! ### Runs that undo each other -/

section
variable {w : Nat} (x : BitVec w) {a : Nat} (ha : a < w)
include ha

theorem rotateRight_rotateLeft : (x.rotateLeft a).rotateRight a = x := by
  rw [← rotL_eq_rotateLeft x a ha, ← rotR_eq_rotateRight _ a ha, rotR_rotL, BitVec.ofNat_toNat, BitVec.setWidth_eq]

theorem rotateLeft_rotateRight : (x.rotateRight a).rotateLeft a = x := by
  rw [← rotR_eq_rotateRight x a ha, ← rotL_eq_rotateLeft _ a ha, rotL_rotR, BitVec.ofNat_toNat, BitVec.setWidth_eq]

end

section
variable (rom : Rom) (rk : Vector Word 32) (b : Block) (r lo hi : Round)

/-- `F` gets the same half in both rounds, its value is XORed in twice, and the rotations are opposite. -/
theorem blockRound_backward_forward :
    blockRound (backwardRound rom rk .real) (blockRound (forwardRound rom rk .real) b r) r = b := by
  rw [blockRound, blockRound, low32_join, high32_join, forwardRound_eq, backwardRound_eq]
  simp [forwardWord, backwardWord, rotateRight_rotateLeft]

theorem blockRound_forward_backward :
    blockRound (forwardRound rom rk .real) (blockRound (backwardRound rom rk .real) b r) r = b := by
  rw [blockRound, blockRound, low32_join, high32_join, backwardRound_eq, forwardRound_eq]
  simp [forwardWord, backwardWord, rotateLeft_rotateRight]

/-- Steps that are undone one by one are undone together, the last one first. -/
theorem foldl_reverse_foldl {α β : Type} {f g : β → α → β} (h : ∀ x a, g (f x a) a = x) (l : List α)
    (x : β) : l.reverse.foldl g (l.foldl f x) = x := by
  induction l generalizing x with
  | nil => rfl
  | cons a l ih => simp only [List.reverse_cons, List.foldl_append, List.foldl_cons, List.foldl_nil, ih, h]

theorem runBackward_runForward :
    (runBackward rom (runForward rom b rk .real lo hi).block rk .real lo hi).block = b := by
  rw [runBackward_block, runForward_block, foldl_reverse_foldl (blockRound_backward_forward rom rk)]

theorem runForward_runBackward :
    (runForward rom (runBackward rom b rk .real lo hi).block rk .real lo hi).block = b := by
  have h := foldl_reverse_foldl (blockRound_forward_backward rom rk) (roundsUp lo hi).reverse b
  rw [List.reverse_reverse] at h
  rw [runForward_block, runBackward_block, h]

end

/-- A differential request whose one round saturates a nibble: OR keeps it on the way back. -/
def saturatingRequest : Request := { blankRequest 0x7800 with a := 0x0000000100000000 }

/-- Settles O38: in real mode each round undoes the other; in differential mode the round of `saturatingRequest` is not
undone. -/
theorem runsUndoEachOtherInRealModeOnly : Obligations.RunsUndoEachOtherInRealModeOnly := by
  refine ⟨fun s q t lo hi h hr =>
    ⟨⟨_, resultR_exec_rndf h .real hr t, ?_⟩, ⟨_, resultR_exec_rndb h .real hr t, ?_⟩⟩, ?_⟩
  · rw [resultR_exec_rndb (ready_ask h _) .real hr, ask_rom, runBackward_runForward]
  · rw [resultR_exec_rndf (ready_ask h _) .real hr, ask_rom, runForward_runBackward]
  · have h : Ready (ask State.reset saturatingRequest) saturatingRequest := ⟨rfl, by decide⟩
    exact ⟨_, _, 0, 0, _, _, h, resetMeetsTheInvariant defaultTables, le_rfl, resultR_exec_rndf h .diff le_rfl false,
      resultR_exec_rndb (ready_ask h _) .diff le_rfl false, by decide⟩

/-- Settles O40: DECB runs the rounds of ENCB backward, with the subkeys of the same key. -/
theorem decryptUndoesEncrypt : Obligations.DecryptUndoesEncrypt := by
  intro s q h
  refine ⟨_, resultR_exec_encb h, ?_⟩
  rw [resultR_exec_decb (ready_ask h _), ask_rom, runBackward_runForward]

/-- Settles O41: ENCB runs the rounds of DECB forward, with the subkeys of the same key. -/
theorem encryptUndoesDecrypt : Obligations.EncryptUndoesDecrypt := by
  intro s q h
  refine ⟨_, resultR_exec_decb h, ?_⟩
  rw [resultR_exec_encb (ready_ask h _), ask_rom, runForward_runBackward]

/-! ### Runs one after the other -/

section
variable (rom : Rom) (b : Block) (rk : Vector Word 32) (m : Mode) {lo mid next hi : Round} (hlo : lo ≤ mid)
  (hnext : next.val = mid.val + 1) (hhi : next ≤ hi)
include hlo hnext hhi

theorem runForward_split_block :
    (runForward rom (runForward rom b rk m lo mid).block rk m next hi).block = (runForward rom b rk m lo hi).block := by
  rw [runForward_block, runForward_block, runForward_block, ← List.foldl_append, roundsUp_append hlo hnext hhi]

theorem runBackward_split_block :
    (runBackward rom (runBackward rom b rk m next hi).block rk m lo mid).block
      = (runBackward rom b rk m lo hi).block := by
  rw [runBackward_block, runBackward_block, runBackward_block, ← List.foldl_append, ← List.reverse_append,
    roundsUp_append hlo hnext hhi]

theorem runForward_split_trk :
    (runForward rom b rk m lo hi).trk
      = (runForward rom b rk m lo mid).trk
          ++ (runForward rom (runForward rom b rk m lo mid).block rk m next hi).trk := by
  rw [runForward_eq_runRounds, ← roundsUp_append hlo hnext hhi, runRounds_append,
    runForward_eq_runRounds _ (Run.block _), Run.block, low32_join, high32_join]
  rfl

/-- The upper part is run first, and its trail reversed comes last. -/
theorem runBackward_split_trk :
    (runBackward rom b rk m lo hi).trk
      = (runBackward rom (runBackward rom b rk m next hi).block rk m lo mid).trk
          ++ (runBackward rom b rk m next hi).trk := by
  rw [runBackward_eq_runRounds, ← roundsUp_append hlo hnext hhi, List.reverse_append, runRounds_append,
    runBackward_eq_runRounds _ (Run.block _), Run.block, low32_join, high32_join]
  exact List.reverse_append

end

/-- Settles O39: the rounds of the range are those of its two parts, in either direction. -/
theorem runsCompose : Obligations.RunsCompose := by
  intro s q m lo mid next hi h hlo hmid hnext
  have hhi : next ≤ hi := Fin.le_def.mpr (hnext ▸ hmid)
  have hall : lo ≤ hi := hlo.trans hmid.le
  refine ⟨⟨_, _, _, _, resultR_exec_rndf h m hlo true, resultTrail_exec_rndf h m hlo,
      resultR_exec_rndf (ready_ask h _) m hhi true, resultTrail_exec_rndf (ready_ask h _) m hhi, ?_, ?_⟩,
    ⟨_, _, _, _, resultR_exec_rndb h m hhi true, resultTrail_exec_rndb h m hhi,
      resultR_exec_rndb (ready_ask h _) m hlo true, resultTrail_exec_rndb (ready_ask h _) m hlo, ?_, ?_⟩⟩
  · rw [resultR_exec_rndf h m hall, ask_rom, runForward_split_block _ _ _ _ hlo hnext hhi]
  · rw [resultTrail_exec_rndf h m hall, ask_rom, ← runForward_split_trk _ _ _ _ hlo hnext hhi]
  · rw [resultR_exec_rndb h m hall, ask_rom, runBackward_split_block _ _ _ _ hlo hnext hhi]
  · rw [resultTrail_exec_rndb h m hall, ask_rom, ← runBackward_split_trk _ _ _ _ hlo hnext hhi]

/-- Settles O44: one round more appends its vector to the trail. -/
theorem weightGrowsWithTheRange : Obligations.WeightGrowsWithTheRange := by
  intro s q m lo hi next h hr hnext
  have hgrow : hi ≤ next := Fin.le_def.mpr (hnext ▸ Nat.le_succ _)
  refine ⟨_, _, resultTrail_exec_rndf h m hr, resultTrail_exec_rndf h m (hr.trans hgrow), ?_⟩
  rw [runForward_split_trk s.rom q.a q.rki m hr hnext le_rfl, List.map_append, List.sum_append]
  exact Nat.le_add_right ..

/-! ### The known vectors -/

/-- Settles O42, by evaluation with the default tables. -/
theorem knownVectors : Obligations.KnownVectors :=
  ⟨by decide +kernel, by decide +kernel, by decide +kernel⟩

end Sys2Proof.Machine
end

section
/-!
The obligations on trails and the candidate search (spec/45_trail_and_search.md rules R161 to R170): the weight that
WGHT counts, the candidates, the stable order that RANK returns them in, the registers it leaves, and the two inputs
that a differential run does not move, all ones and zero.
-/

namespace Sys2Proof.Machine

/-! ### The weight of a trail -/

theorem trailWeight_eq_sum_setBits (tr : List ActVec) : trailWeight tr = (tr.map setBits).sum :=
  congrArg List.sum (List.map_congr_left fun v _ => pop8_eq_setBits v)

theorem trailWeight_le (tr : List ActVec) : trailWeight tr ≤ 8 * tr.length := by
  simpa [trailWeight, Nat.mul_comm] using List.sum_le_card_nsmul (tr.map pop8) 8 (by simp [pop8_le])

theorem trailWeight_replicate (n : Nat) (v : ActVec) : trailWeight (List.replicate n v) = n * pop8 v := by
  simp [trailWeight]

/-- The 9 bits of the weight field hold the weight of any recorded trail (R28). -/
theorem weightBits_trailWeight_toNat {tr : List ActVec} (h : tr.length ≤ 32) :
    (weightBits (trailWeight tr)).toNat = trailWeight tr := by
  have := trailWeight_le tr
  exact Nat.mod_eq_of_lt (by omega)

/-- Settles O45, by the three cases of the count. -/
theorem wghtCountsActiveSboxes : Obligations.WghtCountsActiveSboxes := by
  intro s q h
  have raises (e : ErrCode) (hne : e ≠ .ok) (he : countError q.tri.n.toNat = e) :
      exec .wght s = .next (raiseError s e) := (exec_eq_raiseError_iff h hne).mpr he
  refine ⟨fun h0 => raises .emptyTrail (by decide) (by simp [countError, h0]), fun ⟨h1, h32⟩ => ?_,
    fun hgt => raises .illegalCommand (by decide) (by simp [countError, hgt])⟩
  have hlen : (trailVectors q.tri).length = q.tri.n.toNat := by simp [trailVectors, h32]
  have hw := weightBits_trailWeight_toNat (hlen.trans_le h32)
  refine ⟨_, exec_wght h h1 h32, hw.trans (trailWeight_eq_sum_setBits _), ?_⟩
  rw [hw, ← hlen]
  exact trailWeight_le _

/-! ### The candidates -/

theorem keyDifference_getLsbD (j : Fin 77) {b : Nat} (hb : b < 80) :
    (keyDifference j).getLsbD b = (decide (j.val ≤ b) && decide (b ≤ j.val + 3)) := by
  have h15 (i : Nat) : (0xF#80).getLsbD i = decide (i < 4) := by
    rw [BitVec.getLsbD_ofNat, Nat.testBit_two_pow_sub_one 4]
    grind
  rw [keyDifference, BitVec.getLsbD_shiftLeft, h15]
  grind

/-- Bit `j` is the lowest one set in candidate `j`. -/
theorem keyDifference_getLsbD_self (j : Fin 77) : (keyDifference j).getLsbD j = true := by
  rw [keyDifference_getLsbD j (by omega)]
  simp

theorem keyDifference_injective : Function.Injective keyDifference := by
  have le_of_eq {j j' : Fin 77} (h : keyDifference j = keyDifference j') : j' ≤ j := by
    have hbit := keyDifference_getLsbD_self j
    rw [h, keyDifference_getLsbD j' (by omega), Bool.and_eq_true, decide_eq_true_iff] at hbit
    exact hbit.1
  exact fun j j' h => le_antisymm (le_of_eq h.symm) (le_of_eq h)

theorem keyDifference_ne_zero (j : Fin 77) : keyDifference j ≠ 0 := by
  intro h
  have hbit := keyDifference_getLsbD_self j
  simp [h] at hbit

/-- Settles O46, by the bits of a candidate. -/
theorem candidateDifferences : Obligations.CandidateDifferences :=
  ⟨fun j _ hb => keyDifference_getLsbD j hb, fun _ _ h => keyDifference_injective h, keyDifference_ne_zero⟩

section
variable (rom : Rom) (d : Block) (lo hi : Round) (j : Fin 77)

@[simp] theorem evaluate_kd : (evaluate rom d lo hi j).kd = keyDifference j := rfl
@[simp] theorem evaluate_drk : (evaluate rom d lo hi j).drk = keySchedule rom (keyDifference j) .diff := rfl
@[simp] theorem evaluate_tr : (evaluate rom d lo hi j).tr = trailRecord (candidateRun rom d lo hi j).trk := rfl

@[simp] theorem evaluate_pos : (evaluate rom d lo hi j).pos.toNat = j :=
  Nat.mod_eq_of_lt (by omega)

@[simp] theorem evaluate_wt :
    (evaluate rom d lo hi j).wt.toNat = trailWeight (candidateRun rom d lo hi j).trk :=
  weightBits_trailWeight_toNat (runForward_trk_le ..)

end

/-! ### The stable order of a ranking -/

/-- The order in which a ranking holds its records: ascending by weight, equal weights by position (R166). -/
def RanksBefore (a b : Candidate) : Prop := a.wt.toNat ≤ b.wt.toNat ∧ (a.wt = b.wt → a.pos.toNat < b.pos.toNat)

/-- An insertion sort inserts a record before those of equal weight, so that it stays before the later positions. -/
theorem pairwise_ranksBefore_orderedInsert {a : Candidate} {l : List Candidate}
    (ha : ∀ b ∈ l, a.pos.toNat < b.pos.toNat) (hl : l.Pairwise RanksBefore) :
    (l.orderedInsert byWeight a).Pairwise RanksBefore := by
  induction l with
  | nil => exact List.pairwise_singleton _ a
  | cons b l ih =>
    obtain ⟨hb, hl'⟩ := List.pairwise_cons.mp hl
    by_cases hab : byWeight a b
    · rw [List.orderedInsert_cons_of_le _ _ hab]
      refine .cons (fun c hc => ⟨?_, fun _ => ha c hc⟩) hl
      obtain rfl | hc := List.mem_cons.mp hc
      · exact hab
      · exact hab.trans (hb c hc).1
    · rw [List.orderedInsert_of_not_le _ _ hab]
      refine .cons (fun c hc => ?_) (ih (fun c hc => ha c (.tail b hc)) hl')
      obtain rfl | hc := (List.mem_orderedInsert _).mp hc
      · exact ⟨le_of_not_ge hab, fun he => absurd (congrArg BitVec.toNat he).ge hab⟩
      · exact hb c hc

theorem pairwise_ranksBefore_insertionSort {l : List Candidate}
    (hl : l.Pairwise fun a b => a.pos.toNat < b.pos.toNat) : (l.insertionSort byWeight).Pairwise RanksBefore := by
  induction l with
  | nil => exact .nil
  | cons a l ih =>
    obtain ⟨ha, hl'⟩ := List.pairwise_cons.mp hl
    exact pairwise_ranksBefore_orderedInsert (fun b hb => ha b ((List.mem_insertionSort _).mp hb)) (ih hl')

theorem rankList_pairwise_ranksBefore (rom : Rom) (d : Block) (lo hi : Round) :
    (rankList rom d lo hi).Pairwise RanksBefore := by
  refine pairwise_ranksBefore_insertionSort (List.pairwise_map.mpr ?_)
  simpa using (List.sortedLT_finRange 77).pairwise

section
variable {rom : Rom} {d : Block} {lo hi : Round} {cnd : Vector Candidate 77} (hcnd : cnd = ranking rom d lo hi)
include hcnd

theorem toList_of_ranking : cnd.toList = rankList rom d lo hi := by
  simp [hcnd, ranking]

/-- Every candidate is evaluated into some record of a ranking. -/
theorem exists_getElem_eq_evaluate (j : Fin 77) : ∃ k : Fin 77, cnd[k] = evaluate rom d lo hi j := by
  have hmem : evaluate rom d lo hi j ∈ cnd.toList := by simp [toList_of_ranking hcnd, rankList]
  obtain ⟨k, hk, he⟩ := Vector.getElem_of_mem (Vector.mem_toList_iff.mp hmem)
  exact ⟨⟨k, hk⟩, he⟩

theorem getElem_ranksBefore {a b : Fin 77} (hab : a < b) : RanksBefore cnd[a] cnd[b] := by
  have hsorted := rankList_pairwise_ranksBefore rom d lo hi
  rw [← toList_of_ranking hcnd] at hsorted
  exact List.pairwise_iff_getElem.mp hsorted a b (by simp) (by simp) hab

/-- Where all weights are equal, sorting leaves the order of enumeration (R166). -/
theorem getElem_of_equal_weights {n : Nat} (hwt : ∀ j, (evaluate rom d lo hi j).wt.toNat = n) (k : Fin 77) :
    cnd[k] = evaluate rom d lo hi k := by
  have hsorted : ((List.finRange 77).map (evaluate rom d lo hi)).Pairwise byWeight :=
    List.pairwise_map.mpr (List.pairwise_of_forall fun i j => ((hwt i).trans (hwt j).symm).le)
  have hlist : rankList rom d lo hi = (List.finRange 77).map (evaluate rom d lo hi) := hsorted.insertionSort_eq
  simp [hcnd, ranking, hlist]

end

/-! ### RANK -/

section
variable {s : State} {q : Request} (h : Ready s q) {lo hi : Round}
include h

theorem rko_exec_ksch (m : Mode) :
    (responseIn (exec (.ksch m) s)).bind Response.rko = some (keySchedule s.rom q.key m) :=
  congrArg (fun o => (responseIn o).bind Response.rko) (exec_ksch h m)

theorem tro_exec_rndf (m : Mode) (hr : lo ≤ hi) :
    (responseIn (exec (.rndf m true lo hi) s)).bind Response.tro
      = some (trailRecord (runForward s.rom q.a q.rki m lo hi).trk) :=
  congrArg (fun o => (responseIn o).bind Response.tro) (exec_rndf h m true hr)

end

/-- RANK completes with a ranking. The table is not named, so that no later proof sorts it. -/
theorem exec_rank_eq_finishRank {s : State} {q : Request} (h : Ready s q) {lo hi : Round} (hr : lo ≤ hi) :
    ∃ cnd, cnd = ranking s.rom q.a lo hi ∧ exec (.rank lo hi) s = .next (finishRank s q.a lo hi cnd) :=
  ⟨_, rfl, exec_rank h hr⟩

/-- Settles O47: a record of RANK is the evaluation of a candidate, which is what KSCH and RNDF compute, and the
insertion sort is stable. -/
theorem rankSortsAllCandidates : Obligations.RankSortsAllCandidates := by
  intro s q lo hi h hr
  obtain ⟨cnd, hcnd, hexec⟩ := exec_rank_eq_finishRank h hr
  refine ⟨cnd, _, hexec, rfl, rfl, fun j => ?_, fun k => ?_, fun _ _ => getElem_ranksBefore hcnd⟩
  · obtain ⟨k, hk⟩ := exists_getElem_eq_evaluate hcnd j
    exact ⟨k, by rw [hk, evaluate_pos]⟩
  · obtain ⟨j, hj⟩ := ranking_getElem lo hi q.a s.rom k
    have hfit : (candidateRun s.rom q.a lo hi j).trk.length ≤ 32 := runForward_trk_le ..
    rw [hcnd, hj, evaluate_pos, evaluate_kd, evaluate_drk, evaluate_tr, evaluate_wt, trailEntries_trailRecord hfit]
    exact ⟨by omega, rfl, rko_exec_ksch (ready_ask h _) .diff, tro_exec_rndf (ready_ask h _) .diff hr,
      (candidateRun_trail hr s.rom q.a j).1, trailWeight_eq_sum_setBits _⟩

/-- Settles O52: the registers are those of KSCH for candidate 76 and of RNDF with the subkeys it leaves. -/
theorem workingRegistersAfterRank : Obligations.WorkingRegistersAfterRank := by
  intro s q lo hi h hr
  obtain ⟨cnd, -, hexec⟩ := exec_rank_eq_finishRank h hr
  exact ⟨_, _, _, hexec, rfl, exec_ksch (ready_ask h _) .diff, exec_rndf (ready_ask h _) .diff true hr,
    rfl, rfl, rfl, rfl, rfl, rfl, rfl⟩

/-! ### Inputs that a differential run does not move -/

/-- Where every round takes the halves `w`, `w` to themselves with the vector `v`, the run keeps its block and records
`v` each time. -/
theorem runForward_of_fixed {rom : Rom} {b : Block} {rk : Vector Word 32} {m : Mode} {lo hi : Round} {w : Word}
    {v : ActVec} (hr : lo ≤ hi) (hlow : low32 b = w) (hhigh : high32 b = w)
    (hw : ∀ r, forwardWord rom rk m r w w = w) (hv : ∀ r, roundVector rom rk m r w = v) :
    (runForward rom b rk m lo hi).block = b
      ∧ (runForward rom b rk m lo hi).trk = List.replicate (hi.val - lo.val + 1) v := by
  rw [runForward_eq_of_words (W := fun _ => w) hr hlow.symm hhigh.symm fun r _ => (hw r).symm]
  constructor
  · rw [Run.block, ← join_low_high b, hlow, hhigh]
  · simp only [hv, List.map_const', length_roundsUp_of_le hr]

theorem nib_allOnes (i : Lane) : nib (BitVec.allOnes 32) i = 0xF := by
  revert i
  decide

section
variable {rom : Rom} (h : SaturatingTable rom)
include h

/-- Saturation keeps the word of all ones, and every S-box is active on it. -/
theorem roundF_diff_allOnes : roundF rom (BitVec.allOnes 32) .diff = (BitVec.allOnes 32, 0xFF) := by
  have hs : sLayer rom (BitVec.allOnes 32) .diff = BitVec.allOnes 32 := by
    refine word_ext_nib fun i => ?_
    rw [nib_sLayer_diff h, nib_allOnes]
    rfl
  have hp : pLayer rom (BitVec.allOnes 32) = BitVec.allOnes 32 :=
    word_ext_nib fun i => by rw [nib_pLayer, nib_allOnes, nib_allOnes]
  have hact : act (BitVec.allOnes 32) = 0xFF := by decide
  rw [roundF, hs, hp, hact]

/-- OR with a subkey keeps all ones, and so every round keeps both halves. -/
theorem runForward_diff_allOnes (rk : Vector Word 32) {lo hi : Round} (hr : lo ≤ hi) :
    (runForward rom (BitVec.allOnes 64) rk .diff lo hi).trk = List.replicate (hi.val - lo.val + 1) 0xFF := by
  have hkey (r : Round) : combine (BitVec.allOnes 32) rk[r] .diff = BitVec.allOnes 32 := BitVec.allOnes_or
  refine (runForward_of_fixed hr (w := BitVec.allOnes 32) (by decide) (by decide) (fun r => ?_) fun r => ?_).2
  · rw [forwardWord, hkey, roundF_diff_allOnes h, combine_diff, BitVec.allOnes_or]
  · rw [roundVector, hkey, roundF_diff_allOnes h]

/-- With zero subkeys every round keeps two zero halves, and no S-box is active (R170). -/
theorem runForward_diff_zero {lo hi : Round} (hr : lo ≤ hi) :
    (runForward rom 0 (Vector.replicate 32 0) .diff lo hi).block = 0
      ∧ (runForward rom 0 (Vector.replicate 32 0) .diff lo hi).trk = List.replicate (hi.val - lo.val + 1) 0 := by
  have hkey (r : Round) : combine 0 (Vector.replicate 32 (0 : Word))[r] .diff = 0 := by simp
  refine runForward_of_fixed hr (w := 0) (by decide) (by decide) (fun r => ?_) fun r => ?_
  · rw [forwardWord, hkey, roundF_diff_zero h]
    decide
  · rw [roundVector, hkey, roundF_diff_zero h]

theorem keySchedule_diff_zero : keySchedule rom 0 .diff = Vector.replicate 32 0 := by
  refine Vector.ext fun r hr => ?_
  have hzero : subkeyOf 0 = 0 := by decide
  have hsub := keySchedule_getElem rom 0 .diff ⟨r, hr⟩
  rw [keyState_diff_zero h, hzero] at hsub
  simpa using hsub

/-- From all ones every round of every candidate has eight active S-boxes. -/
theorem evaluate_allOnes_wt {lo hi : Round} (hr : lo ≤ hi) (j : Fin 77) :
    (evaluate rom (BitVec.allOnes 64) lo hi j).wt.toNat = 8 * (hi.val - lo.val + 1) := by
  have hpop : pop8 0xFF = 8 := by decide
  rw [evaluate_wt, candidateRun, runForward_diff_allOnes h _ hr, trailWeight_replicate, hpop, Nat.mul_comm]

end

/-- Settles O48: from all ones no round of any candidate leaves them, so that all weights are equal. -/
theorem rankOfAllOnes : Obligations.RankOfAllOnes := by
  intro s q lo hi h hr ha _ hsat
  obtain ⟨cnd, hcnd, hexec⟩ := exec_rank_eq_finishRank h hr
  refine ⟨cnd, congrArg (fun o => (responseIn o).bind Response.cndo) hexec, fun k => ?_⟩
  have hwt (j : Fin 77) : (evaluate s.rom q.a lo hi j).wt.toNat = 8 * (hi.val - lo.val + 1) :=
    ha ▸ evaluate_allOnes_wt hsat hr j
  rw [getElem_of_equal_weights hcnd hwt, evaluate_pos, hwt]
  exact ⟨rfl, rfl⟩

/-- Settles O49: the zero key state, the zero halves and the zero word of `F` stay zero. -/
theorem zeroDifferenceStaysZero : Obligations.ZeroDifferenceStaysZero := by
  refine ⟨fun s q h hsat hkey ha hrki htri => ?_, keyDifference_ne_zero⟩
  have hall : (0 : Round) ≤ 31 := by decide
  obtain ⟨hblock, htrk⟩ := runForward_diff_zero hsat hall
  have hcount : q.tri.n.toNat = 32 := by rw [htri]; rfl
  have hwght := exec_wght h (by omega) hcount.le
  have hweight : weightBits (trailWeight (trailVectors q.tri)) = 0 := by rw [htri]; decide
  refine ⟨?_, ?_, ?_, ?_⟩
  · rw [rko_exec_ksch h, hkey, keySchedule_diff_zero hsat]
  · rw [resultR_exec_rndf h .diff hall, ha, hrki, hblock]
  · rw [resultTrail_exec_rndf h .diff hall, ha, hrki, htrk]
    rfl
  · rw [hwght, hweight]
    rfl

end Sys2Proof.Machine
end

section
/-!
The obligations on the errors of a request (spec/60_exceptions.md rules R178, R184, R185): their priority, read from the
fields of the word, is the one the operations keep; what a response carries; and the range test.
-/

namespace Sys2Proof.Machine

/-! ### The priority of the errors -/

/-- The error a request meets once the tables are good, the first in the order of R185, or completion. -/
def requestError (q : Request) : ErrCode :=
  if illegalRequest q then .illegalCommand
  else if badRange q then .invalidRange
  else if emptyTrail q then .emptyTrail
  else .ok

/-- TableIntegrity comes before the errors of the request (R180, R185). -/
theorem expectedErr_eq (s : State) (q : Request) :
    expectedErr s q = (errBits (if s.tfault then .tableIntegrity else requestError q)).toNat := by
  unfold expectedErr requestError
  split_ifs <;> rfl

/-- A word that is not decoded is an illegal command (R71, R181). -/
theorem requestError_of_reject {q : Request} {e : DecodeReject} (h : decode q.cmd = .error e) :
    requestError q = .illegalCommand := by
  have hwf : (fieldsOfWord q.cmd).wf = false := by
    have hd := decode_decodedAs q.cmd
    rwa [h] at hd
  simp [requestError, illegalRequest, hwf]

/-- The conditions read from the fields of a decoded word are those its operation tests. -/
theorem requestError_of_decode {q : Request} {i : Instr} (h : decode q.cmd = .ok i) :
    requestError q = operationError q i := by
  have hf := decode_eq_ok_iff.mp h
  simp only [requestError, illegalRequest, badRange, emptyTrail, opNumber, ← hf, fieldsOf_wf]
  cases i with
  | wght => simp [fieldsOf, usesRange, operationError, countError, ← BitVec.toNat_inj]
  | rndf m t lo hi | rndb m t lo hi | rank lo hi => simp [fieldsOf, usesRange, roundField, operationError, rangeError]
  | slyr | plyr | pinv | frnd | rrev | ksch | encb | decb => simp [fieldsOf, usesRange, operationError]

section
variable {s : State} {q : Request} (h : Ready s q)
include h

/-- A ready operation answers with the code of the error it ends in (R177). -/
theorem exec_answers_operationError (i : Instr) :
    ∃ t rsp, exec i s = .next t ∧ t.rsp = some rsp ∧ rsp.err = errBits (operationError q i) := by
  by_cases he : operationError q i = .ok
  · obtain ⟨t, ht, hc⟩ := exec_completes h he
    obtain ⟨rsp, hrsp, herr⟩ := hc.err_eq_zero
    exact ⟨t, rsp, ht, hrsp, herr.trans (congrArg errBits he).symm⟩
  · exact ⟨_, _, exec_raises h he, rfl, rfl⟩

/-- The step answers a ready request with the code of the error it meets, whatever its word. -/
theorem step_answers_requestError :
    ∃ t rsp, step s = .next t ∧ t.rsp = some rsp ∧ rsp.err = errBits (requestError q) := by
  rw [step_of_request h.1]
  cases hd : decode q.cmd with
  | ok i =>
    rw [requestError_of_decode hd]
    exact exec_answers_operationError h i
  | error e =>
    rw [requestError_of_reject hd]
    exact ⟨_, _, serve_error h rfl, rfl, rfl⟩

end

/-- Settles O10: faulty tables answer every request, and else the request's own first error is its operation's. -/
theorem errorPriority : Obligations.ErrorPriority := by
  intro s q hq
  rw [expectedErr_eq]
  cases htf : s.tfault with
  | true => exact ⟨_, _, (tableFaultAnswersEveryRequest s q hq htf).1, rfl, rfl⟩
  | false =>
    obtain ⟨t, rsp, ht, hrsp, herr⟩ := step_answers_requestError ⟨hq, htf⟩
    exact ⟨t, rsp, ht, hrsp, congrArg BitVec.toNat herr⟩

/-! ### The fields of a response -/

/-- The response carries the fields that the operation writes and no others (R28, R68, R184). -/
def CarriesFieldsOf (i : Instr) (rsp : Response) : Prop :=
  rsp.r.isSome = givesBlock i ∧ rsp.av.isSome = givesActivity i ∧ rsp.rko.isSome = givesSubkeys i
    ∧ rsp.tro.isSome = givesTraces i ∧ rsp.iso.isSome = givesTraces i ∧ rsp.wt.isSome = givesWeight i
    ∧ rsp.cndo.isSome = givesCandidates i

@[simp] theorem isSome_whenTraced {α : Type} (t : Bool) (x : α) : (whenTraced t x).isSome = t := by
  cases t <;> rfl

/-- RNDF and RNDB carry the block, and the traces when traced (R146, R147). -/
theorem runResponse_fields (run : Run) (t : Bool) :
    (runResponse run t).r.isSome = true ∧ (runResponse run t).av.isSome = false
      ∧ (runResponse run t).rko.isSome = false ∧ (runResponse run t).tro.isSome = t
      ∧ (runResponse run t).iso.isSome = t ∧ (runResponse run t).wt.isSome = false
      ∧ (runResponse run t).cndo.isSome = false :=
  ⟨rfl, rfl, rfl, isSome_whenTraced .., isSome_whenTraced .., rfl, rfl⟩

/-- An operation that completes has answered the request, with code 0 and its own fields. -/
theorem Completes.carriesFields {s t : State} {q : Request} {i : Instr} (h : Completes s q i t) :
    t.req = none ∧ ∃ rsp, t.rsp = some rsp ∧ rsp.err = 0 ∧ CarriesFieldsOf i rsp := by
  cases h with
  | frnd m traced => exact ⟨rfl, _, rfl, rfl, rfl, isSome_whenTraced .., rfl, rfl, rfl, rfl, rfl⟩
  | rndf m traced | rndb m traced => exact ⟨rfl, _, rfl, rfl, runResponse_fields _ traced⟩
  | encb | decb => exact ⟨rfl, _, rfl, rfl, runResponse_fields _ false⟩
  | slyr | plyr | pinv | rrev | ksch | wght | rank => exact ⟨rfl, _, rfl, rfl, rfl, rfl, rfl, rfl, rfl, rfl, rfl⟩

/-- An operation on a request ends in an error that leaves all else alone, or completes. -/
theorem exec_raises_or_completes {s : State} {q : Request} (hq : s.req = some q) (i : Instr) :
    (∃ e, e ≠ .ok ∧ exec i s = .next (raiseError s e)) ∨ ∃ t, exec i s = .next t ∧ Completes s q i t := by
  cases htf : s.tfault with
  | true => exact .inl ⟨.tableIntegrity, by decide, (tableFaultAnswersEveryRequest s q hq htf).2 i⟩
  | false =>
    by_cases he : operationError q i = .ok
    · exact .inr (exec_completes ⟨hq, htf⟩ he)
    · exact .inl ⟨_, he, exec_raises ⟨hq, htf⟩ he⟩

/-- Settles O11: a completed operation carries its fields with code 0, and only an error has another code. -/
theorem responseCarriesExactlyItsFields : Obligations.ResponseCarriesExactlyItsFields := by
  intro i s q hq
  obtain ⟨e, hne, hexec⟩ | ⟨t, hexec, hc⟩ := exec_raises_or_completes hq i
  · exact ⟨_, responseOf e, hexec, rfl, rfl, fun h0 => absurd ((errBits_eq_zero_iff e).mp h0) hne,
      fun _ => ⟨rfl, rfl⟩⟩
  · obtain ⟨hreq, rsp, hrsp, herr, hfields⟩ := hc.carriesFields
    exact ⟨t, rsp, hexec, hreq, hrsp, fun _ => hfields, fun hne => absurd herr hne⟩

/-! ### Invalid ranges -/

/-- An operation that tests its range ends in `InvalidRange` and leaves all else alone (R178). -/
theorem exec_of_rangeError {s : State} {q : Request} (h : Ready s q) {i : Instr} {lo hi : Round}
    (herr : operationError q i = rangeError lo hi) (hlt : hi < lo) : exec i s = .next (raiseError s .invalidRange) :=
  (exec_eq_raiseError_iff h (by decide)).mpr (herr.trans (if_pos hlt))

/-- Settles O12: the range is tested before the work, and ENCB and DECB complete on every ready request. -/
theorem invalidRangeRejected : Obligations.InvalidRangeRejected := fun _ _ h =>
  ⟨fun _ _ _ _ hlt => ⟨exec_of_rangeError h rfl hlt, exec_of_rangeError h rfl hlt, exec_of_rangeError h rfl hlt⟩,
    congrArg (fun o => (responseIn o).map Response.err) (exec_encb h),
    congrArg (fun o => (responseIn o).map Response.err) (exec_decb h)⟩

end Sys2Proof.Machine
end

section
/-!
The obligations on the idle block and its working registers: the registers that an operation leaves (spec/10_state.md
rule R32), the waiting block, which alone takes a request (spec/70_reset_and_hazards.md rules R201, R203), and the
registers at reset (R35).
-/

namespace Sys2Proof.Machine

/-! ### The registers an operation leaves -/

/-- The response that copies the halves out, and with the trace flag the trackers (R146 to R149). -/
def copiedOut (a : State) (t : Bool) : Response :=
  ⟨0, some (join a.x0 a.x1), none, none, whenTraced t a.trk, whenTraced t a.ist, none, none⟩

/-- What a run answers under either flag `t'` stands in the registers that it leaves under the flag `t`. -/
theorem runResponse_eq_copiedOut_finishRun (s : State) (rki : Vector Word 32) (run : Run) (last : Round) (t t' : Bool) :
    runResponse run t' = copiedOut (finishRun s rki run last t) t' := rfl

theorem runResponse_eq_copiedOut_finishCipher (s : State) (key : Key) (rk : Vector Word 32) (run : Run) (last : Round) :
    runResponse run false = copiedOut (finishCipher s key rk run last) false := rfl

/-- The last subkey is the subkey field of the key state that the schedule leaves in `K` (R127, R128). -/
theorem keySchedule_last (rom : Rom) (key : Key) (m : Mode) :
    (keySchedule rom key m)[31] = subkeyOf (finalKey rom key m) :=
  keySchedule_getElem rom key m 31

/-- Settles O51: the state that each operation leaves is known, and what the operation answers stands in its
registers. -/
theorem workingRegistersAreCopiedOut : Obligations.WorkingRegistersAreCopiedOut := by
  intro s q m t lo hi h hr
  have copied := fun run last t' => congrArg some (runResponse_eq_copiedOut_finishRun s q.rki run last t t')
  have ciphered := fun run last => congrArg some
    (runResponse_eq_copiedOut_finishCipher s q.key (keySchedule s.rom q.key .real) run last)
  exact ⟨_, _, _, _, _, _,
    exec_rndf h m t hr, rfl, rfl, copied _ hi t, (congrArg responseIn (exec_rndf h m true hr)).trans (copied _ hi true),
    exec_rndb h m t hr, rfl, rfl, copied _ lo t, (congrArg responseIn (exec_rndb h m true hr)).trans (copied _ lo true),
    exec_ksch h m, rfl, keySchedule_last s.rom q.key m, rfl,
    exec_ksch h .real,
    exec_encb h, ciphered _ 31, rfl, rfl, rfl,
    exec_decb h, ciphered _ 0, rfl, rfl, rfl⟩

/-! ### The idle block -/

/-- Settles O7: a step with no request waits. -/
theorem idleBlockWaits : Obligations.IdleBlockWaits := fun _ => step_of_idle

/-- A block with a request pending takes no other (R203). -/
theorem present_of_busy {s : State} (h : s.req ≠ none) (q : Request) : present q s = none := by
  obtain ⟨pending, hp⟩ := Option.ne_none_iff_exists'.mp h
  rw [present, hp]

/-- Settles O8: whether a request is pending decides if the move exists. -/
theorem presentOnlyWhenIdle : Obligations.PresentOnlyWhenIdle := fun _ q =>
  ⟨fun h => present_of_idle h q, fun h => present_of_busy h q⟩

/-! ### The registers at reset -/

theorem noTrail_getElem (k : Fin 32) : noTrail.v[k] = none := Vector.getElem_replicate k.isLt

theorem noTrace_getElem (k : Fin 34) : noTrace.v[k] = none := Vector.getElem_replicate k.isLt

/-- Settles O19: every array of the reset state repeats its empty entry, and every other register is a constant. -/
theorem resetWorkingRegisters : Obligations.ResetWorkingRegisters := by
  refine fun tb => ⟨rfl, rfl, rfl, fun r => Vector.getElem_replicate r.isLt, rfl, noTrail_getElem, rfl,
    noTrace_getElem, fun j => ?_, rfl, rfl, rfl, rfl⟩
  have hblank : (State.resetWith tb).cnd[j] = blankCandidate := Vector.getElem_replicate j.isLt
  rw [hblank]
  exact ⟨rfl, rfl, fun r => Vector.getElem_replicate r.isLt, rfl, noTrail_getElem, rfl⟩

end Sys2Proof.Machine
end
